-- ==== Sys2Proof/Word.lean ====
section
/-! DEFINITION. The word types of the emulator ISA (spec/00_scope.md R6, R8, R9). -/

namespace Sys2Proof

/-- A byte (R8). -/
abbrev Byte := BitVec 8

/-- A register value, an ALU result, an immediate: a 16-bit pattern (R6 `XLEN`, `IMMW`; R9). -/
abbrev Word := BitVec 16

/-- An instruction word `W = B0 ++ B1 ++ B2 ++ B3` (R6 `ILEN`; R8). -/
abbrev InstrWord := BitVec 32

/-- An effective address or a jump target before it enters the pc (R6 `EAW`). -/
abbrev EffAddr := BitVec 17

/-- The program counter, a word index (R6 `PCW`; spec/10_state.md R26). -/
abbrev WordIndex := BitVec 32

end Sys2Proof
end

