-- ==== Sys2Proof/Syntax.lean ====
section
/-! DEFINITION. The decoded instruction (spec/30_encoding.md R65, R66), one constructor per row of spec/opcode_table.json. -/

namespace Sys2Proof

/-- A decoded instruction. Operands stand in the order `a`, `b`, `c`, `i` of R66; a field that R66 calls unused is not
kept. A register operand is a Registry (spec/00_scope.md R12): an index that selects a cell of the register bank,
of which the decoder yields 0 to 15 only and the bank checks every one (spec/10_state.md R25, log entry 9). -/
inductive Instr where
  /-- opcode 0 (R84) -/
  | noop
  /-- opcode 1 (R85) -/
  | halt
  /-- opcode 2 (R90): source register -/
  | cout (a : Nat)
  /-- opcode 3 (R91): source register -/
  | iout (a : Nat)
  /-- opcode 4 (R101): target base register, unsigned offset -/
  | jump (a : Nat) (off : Word)
  /-- opcode 5 (R102): target base register, the two compared registers, unsigned offset -/
  | fork (a b c : Nat) (off : Word)
  /-- opcode 6 (R111): destination register, base register, unsigned offset -/
  | load (a b : Nat) (off : Word)
  /-- opcode 7 (R112): source register, base register, unsigned offset -/
  | pool (a b : Nat) (off : Word)
  /-- opcode 8 (R122): destination, left, right, signed immediate -/
  | iadd (a b c : Nat) (imm : Word)
  /-- opcode 9 (R123) -/
  | isub (a b c : Nat) (imm : Word)
  /-- opcode 10 (R124) -/
  | imul (a b c : Nat) (imm : Word)
  /-- opcode 11 (R125) -/
  | idiv (a b c : Nat) (imm : Word)
  /-- opcode 12: `ERROR(0x0C)` (R67, spec/40_sequencer.md R86) -/
  | errorC
  /-- opcode 13: `ERROR(0x0D)` -/
  | errorD
  /-- opcode 14: `ERROR(0x0E)` -/
  | errorE
  /-- opcode 15: `ERROR(0x0F)` -/
  | errorF
deriving DecidableEq, Repr

end Sys2Proof
end

