-- ==== Sys2Proof/WellFormed.lean ====
section
/-! DEFINITION. Well-formed instructions: every register operand names one of the sixteen registers (spec/10_state.md R25). -/

namespace Sys2Proof

/-- The registers an instruction names, in the order `a`, `b`, `c` (spec/30_encoding.md R66). -/
def Instr.registries : Instr → List Nat
  | .noop | .halt | .errorC | .errorD | .errorE | .errorF => []
  | .cout a | .iout a | .jump a _ => [a]
  | .load a b _ | .pool a b _ => [a, b]
  | .fork a b c _ | .iadd a b c _ | .isub a b c _ | .imul a b c _ | .idiv a b c _ => [a, b, c]

/-- The first operand that is no index of the bank, if there is one (spec/60_exceptions.md R149: in the order
`a`, `b`, `c`). -/
def Instr.badRegistry (i : Instr) : Option Nat :=
  i.registries.find? fun n => decide (16 ≤ n)

/-- Every register operand lies in `[0, N)`, `N = 16`. -/
def Instr.wellFormed (i : Instr) : Bool :=
  i.registries.all fun n => decide (n < 16)

end Sys2Proof
end

