-- ==== Sys2Proof/Decode.lean ====
section
/-! DEFINITION. The decoder and the encoder (spec/30_encoding.md R60 to R70) and the byte order of an instruction word
(spec/20_memory.md R43). -/

namespace Sys2Proof

/-- `op = W[31:28]` (R61). -/
def opField (w : InstrWord) : Nat := (w.extractLsb' 28 4).toNat

/-- `a = W[27:24]` (R61). -/
def aField (w : InstrWord) : Nat := (w.extractLsb' 24 4).toNat

/-- `b = W[23:20]` (R61). -/
def bField (w : InstrWord) : Nat := (w.extractLsb' 20 4).toNat

/-- `c = W[19:16]` (R61). -/
def cField (w : InstrWord) : Nat := (w.extractLsb' 16 4).toNat

/-- `i = W[15:0]` (R61). -/
def iField (w : InstrWord) : Word := w.extractLsb' 0 16

/-- The decoder (R65): total and infallible. An illegal opcode decodes to an ERROR form, named by its opcode value. -/
def decode (w : InstrWord) : Instr :=
  match opField w with
  | 0 => .noop
  | 1 => .halt
  | 2 => .cout (aField w)
  | 3 => .iout (aField w)
  | 4 => .jump (aField w) (iField w)
  | 5 => .fork (aField w) (bField w) (cField w) (iField w)
  | 6 => .load (aField w) (bField w) (iField w)
  | 7 => .pool (aField w) (bField w) (iField w)
  | 8 => .iadd (aField w) (bField w) (cField w) (iField w)
  | 9 => .isub (aField w) (bField w) (cField w) (iField w)
  | 10 => .imul (aField w) (bField w) (cField w) (iField w)
  | 11 => .idiv (aField w) (bField w) (cField w) (iField w)
  | 12 => .errorC
  | 13 => .errorD
  | 14 => .errorE
  | _ => .errorF

/-- The four bytes of a word as the program store holds them, `B0` first (R43, R70). -/
def wordBytes (w : InstrWord) : List Byte :=
  [w.extractLsb' 24 8, w.extractLsb' 16 8, w.extractLsb' 8 8, w.extractLsb' 0 8]

/-- The word at the front of a byte sequence, and the rest: none where fewer than four bytes are left
(spec/20_memory.md R42, R43). -/
def takeWord : List Byte → Option (InstrWord × List Byte)
  | b0 :: b1 :: b2 :: b3 :: rest => some (b0 ++ b1 ++ b2 ++ b3, rest)
  | _ => none

/-- Why a byte sequence is no instruction: it ends in a fragment of fewer than four bytes (spec/20_memory.md R42). No
word is refused (R65). -/
inductive DecodeError where
  | fragment
deriving DecidableEq, Repr

/-- The decoder over bytes: the instruction at the front, and the bytes after it. -/
def decodeBytes (bytes : List Byte) : Except DecodeError (Instr × List Byte) :=
  match takeWord bytes with
  | some (w, rest) => .ok (decode w, rest)
  | none => .error .fragment

/-- The host's view of the decoder: the instruction read from the table word `w` of `nbits` bits, its 32-bit word laid
out big-endian (R43). -/
def decodeTableWord (nbits w : Nat) : Option Instr :=
  match decodeBytes (wordBytes (BitVec.ofNat 32 (w % 2 ^ nbits))) with
  | .ok (i, _) => some i
  | .error _ => none

/-- A word from its five fields (R61). -/
def packWord (op a b c : Nat) (i : Word) : InstrWord :=
  BitVec.ofNat 4 op ++ BitVec.ofNat 4 a ++ BitVec.ofNat 4 b ++ BitVec.ofNat 4 c ++ i

/-- The canonical encoding: zero in every unused field (R70). DESIGN CHOICE (log entry 10): the ERROR forms, which R70
gives no encoding of their own, get the word of their opcode with zero elsewhere. -/
def encode : Instr → InstrWord
  | .noop => packWord 0 0 0 0 0
  | .halt => packWord 1 0 0 0 0
  | .cout a => packWord 2 a 0 0 0
  | .iout a => packWord 3 a 0 0 0
  | .jump a off => packWord 4 a 0 0 off
  | .fork a b c off => packWord 5 a b c off
  | .load a b off => packWord 6 a b 0 off
  | .pool a b off => packWord 7 a b 0 off
  | .iadd a b c imm => packWord 8 a b c imm
  | .isub a b c imm => packWord 9 a b c imm
  | .imul a b c imm => packWord 10 a b c imm
  | .idiv a b c imm => packWord 11 a b c imm
  | .errorC => packWord 12 0 0 0 0
  | .errorD => packWord 13 0 0 0 0
  | .errorE => packWord 14 0 0 0 0
  | .errorF => packWord 15 0 0 0 0

end Sys2Proof
end

