-- ==== Sys2Proof/Config.lean ====
section
/-! DEFINITION. The parameters of an instance (spec/00_scope.md R6, R7) and the one free value of the spec. -/

namespace Sys2Proof.Config

/-- The `rand16` oracle of R7 and spec/10_state.md R23: the value of the `k`-th draw of a run, that is of the
`k`-th read of register 3. A FREE VALUE: it has no body, so a claim proved about it holds for every
oracle (log entry 4). -/
opaque rand16 : Nat → Word

/-- The register whose every read is a draw (spec/10_state.md R21, R23). -/
def drawIndex : Nat := 3

/-- The standard register image (spec/10_state.md R24), the spec's default for `REG_INIT` (log entry 2). -/
def standardImage : Vector Word 16 :=
  #v[0x0000, 0x0001, 0xFFFF, 0x0000, 0, 0, 0, 0, 0, 0, 0, 0, 0, 0, 0, 0]

/-- DESIGN CHOICE (log entry 1): the memory size of `State.reset`. The spec leaves `MEM_SIZE` open (R7, D13); this is the
least size under which every address an instruction can form exists (spec/20_memory.md R46). -/
def resetMemSize : Nat := 131072

end Sys2Proof.Config
end

