-- ==== Sys2Proof/Machine/State.lean ====
section
/-! DEFINITION. The machine's state (spec/10_state.md R20), its reset (spec/70_reset_and_hazards.md R170 to R172), and
the reasons a step can stop. -/

namespace Sys2Proof.Machine

/-- The six fault kinds with their payloads (spec/60_exceptions.md R142). A fault is a value of `status`, not an outcome
of the step: see `raise`. -/
inductive FaultKind where
  /-- code 1: the opcode value as a byte (R143) -/
  | invalidInstruction (opcode : Byte)
  /-- code 2: the offending index (R144) -/
  | invalidRegistry (index : Nat)
  /-- code 3 (R145) -/
  | unexpectedEndOfFile
  /-- code 4 (R146) -/
  | divisionByZero
  /-- code 5 (R147) -/
  | backingStoreError
  /-- code 6: the effective address (R148) -/
  | outOfBoundsMemoryAccess (address : EffAddr)
deriving DecidableEq, Repr

/-- The run status (spec/10_state.md R30). -/
inductive Status where
  | running
  | halted
  | faulted (kind : FaultKind)
deriving DecidableEq, Repr

/-- Data memory as (address, byte) pairs in one canonical form (`Memory.wf`): addresses strictly rising, no entry equal
to what an unlisted address reads as. -/
abbrev Memory := List Host.Cell

/-- What an unlisted address reads as: the reset contents of data memory (spec/20_memory.md R44). -/
def Memory.unlisted : Byte := 0x00

/-- The whole state. The first five fields are the spec's `S = (RF, pc, status, mem, out)` (spec/10_state.md R20);
`memSize` and `prog` are the per-instance parameters of spec/00_scope.md R7, fixed at reset; `storeEvents` and
`draws` are the MODEL's own bookkeeping of the environment's answers (log entries 4 and 6). -/
structure State where
  /-- `RF[0 .. 15]` (R21) -/
  regs : Vector Word 16
  /-- the program counter, a word index (R26) -/
  pc : WordIndex
  /-- the run status (R30) -/
  status : Status
  /-- data memory (spec/20_memory.md R44) -/
  mem : Memory
  /-- the output stream (R31) -/
  out : List Byte
  /-- `MEM_SIZE` (spec/20_memory.md R44) -/
  memSize : Nat
  /-- the bytes of the program store (spec/20_memory.md R41) -/
  prog : List Byte
  /-- the `store_fails` events of the fetches to come, next fetch first; none listed means no failure
  (spec/20_memory.md R42) -/
  storeEvents : List Bool
  /-- how many draws of register 3 have been made: the index of the next one (R23) -/
  draws : Nat
deriving DecidableEq, Repr

/-- Why `step` answers no next state. Both are the spec's own: "a terminal state has no step" (spec/40_sequencer.md R87). -/
inductive Fault where
  /-- Raised by `step` when `status` is `Halted`: the run has succeeded and no step exists. Safe: the machine does
  nothing there (log entry 7). -/
  | noStepAfterHalt
  /-- Raised by `step` when `status` is `Faulted`: the run has failed with this fault and no step exists. Safe: the
  machine does nothing there (log entry 7). -/
  | noStepAfterFault (kind : FaultKind)
deriving DecidableEq, Repr

/-- Why the model gives no meaning. -/
inductive Refusal where
  /-- Raised by an arm of `exec` whose instruction has no meaning in the model; no arm does. Safe. -/
  | notModelled (mnemonic : String)
deriving DecidableEq, Repr

/-- The state at the start of a run, for every choice of the host's inputs (spec/70_reset_and_hazards.md R171, R172) and
of the environment's events. -/
def State.resetWith (regInit : Vector Word 16) (memSize : Nat) (prog : List Byte) (storeEvents : List Bool)
    (draws : Nat) : State where
  regs := regInit
  pc := 0
  status := .running
  mem := []
  out := []
  memSize := memSize
  prog := prog
  storeEvents := storeEvents
  draws := draws

/-- The machine right after reset with the spec's defaults: the standard image (spec/10_state.md R24), a store that never
fails (spec/60_exceptions.md R147). DESIGN CHOICE: the memory size (log entry 1), the empty program (log entry 3), the index of the first
draw (log entry 4). -/
def State.reset : State :=
  State.resetWith Config.standardImage Config.resetMemSize [] [] 0

end Sys2Proof.Machine
end

