-- ==== Sys2Proof/Machine/Ops.lean ====
section
/-! DEFINITION. The shared operations: taking a fault, the program counter, the output stream, data memory, fetch. -/

namespace Sys2Proof.Machine

/-- What a step or a meaning answers. -/
abbrev Result := Host.Outcome State Fault Refusal

/-- TAKING A FAULT: `raise K(info)` (spec/60_exceptions.md R150). `status` becomes `Faulted(K, info)` and nothing else
changes. There is no return from a fault (R151), so nothing stands beside it. -/
def raise (k : FaultKind) (s : State) : State :=
  { s with status := .faulted k }

/-- Go on with the value of a checked operation, or take the fault it found. -/
def orRaise {α : Type} (e : Except FaultKind α) (s : State) (k : α → Result) : Result :=
  match e with
  | .ok v => k v
  | .error f => .next (raise f s)

/-! ### The program counter -/

/-- `pc <- pc + 1` (spec/40_sequencer.md R83). -/
def advance (s : State) : State :=
  { s with pc := s.pc + 1 }

/-- `pc <- target`, the 17-bit target zero-extended to the pc (spec/42_control_transfer.md R100, R101). -/
def jumpTo (target : EffAddr) (s : State) : State :=
  { s with pc := target.setWidth 32 }

/-! ### The output stream -/

/-- `Out(bs)`: append to the output stream (spec/10_state.md R31). -/
def emit (bs : List Byte) (s : State) : State :=
  { s with out := s.out ++ bs }

/-! ### Data memory -/

/-- The byte at an address (spec/20_memory.md R44). -/
def Memory.read : Memory → Nat → Byte
  | [], _ => Memory.unlisted
  | (b, w) :: rest, a => if b = a then w else Memory.read rest a

/-- One entry, or none where the byte is what an unlisted address reads as. -/
def Memory.entry (a : Nat) (v : Byte) : Memory :=
  if v = Memory.unlisted then [] else [(a, v)]

/-- Write one byte, keeping the canonical form. -/
def Memory.write : Memory → Nat → Byte → Memory
  | [], a, v => Memory.entry a v
  | (b, w) :: rest, a, v =>
    if a < b then Memory.entry a v ++ (b, w) :: rest
    else if a = b then Memory.entry a v ++ rest
    else (b, w) :: Memory.write rest a v

/-- The canonical form from address `lo` on: addresses strictly rising, no entry that an unlisted address reads as. -/
def Memory.wfFrom : Nat → Memory → Bool
  | _, [] => true
  | lo, (a, v) :: rest => decide (lo ≤ a) && decide (v ≠ Memory.unlisted) && Memory.wfFrom (a + 1) rest

/-- The canonical form of data memory. -/
def Memory.wf (m : Memory) : Bool := Memory.wfFrom 0 m

/-- A 16-bit value, high byte at the lower address (spec/20_memory.md R47, R49). -/
def Memory.readWord (m : Memory) (a : Nat) : Word :=
  m.read a ++ m.read (a + 1)

/-- Write a 16-bit value, high byte at the lower address (spec/20_memory.md R48, R49). -/
def Memory.writeWord (m : Memory) (a : Nat) (v : Word) : Memory :=
  (m.write a (v.extractLsb' 8 8)).write (a + 1) (v.extractLsb' 0 8)

/-- Both bytes of a 16-bit access lie in the segment (spec/20_memory.md R47, R48; spec/60_exceptions.md R148). -/
def inBounds (s : State) (ea : EffAddr) : Bool :=
  decide (ea.toNat + 2 ≤ s.memSize)

/-- `MemRead(ea, 2)` (spec/20_memory.md R47). -/
def memRead (ea : EffAddr) (s : State) : Except FaultKind Word :=
  if inBounds s ea then .ok (s.mem.readWord ea.toNat)
  else .error (.outOfBoundsMemoryAccess ea)

/-- `MemWrite(ea, 2, v)` (spec/20_memory.md R48): both bytes or neither. -/
def memWrite (ea : EffAddr) (v : Word) (s : State) : Except FaultKind State :=
  if inBounds s ea then .ok { s with mem := s.mem.writeWord ea.toNat v }
  else .error (.outOfBoundsMemoryAccess ea)

/-! ### Fetch -/

/-- The fetch interface's answer (spec/20_memory.md R42). -/
inductive FetchAnswer where
  | word (w : InstrWord)
  | endOfStore
  | err
deriving DecidableEq, Repr

/-- The word at a word index of the program store, byte offset `4 * p` (spec/20_memory.md R41); none at and past the end,
where a fragment of fewer than four bytes is no word (R42). -/
def wordAt (prog : List Byte) (p : Nat) : Option InstrWord :=
  (takeWord (prog.drop (4 * p))).map Prod.fst

/-- The environment makes the next fetch fail (spec/60_exceptions.md R147). -/
def storeFails (s : State) : Bool :=
  s.storeEvents.headD false

/-- `IFetch(pc)` (spec/20_memory.md R42). A failed read is reported before the end of the store (spec/60_exceptions.md R149). -/
def ifetch (s : State) : FetchAnswer :=
  if storeFails s then .err
  else
    match wordAt s.prog s.pc.toNat with
    | some w => .word w
    | none => .endOfStore

/-- A fetch has been answered: the environment's event for it is spent. The spec's state is untouched
(spec/40_sequencer.md R81). -/
def afterFetch (s : State) : State :=
  { s with storeEvents := s.storeEvents.tail }

/-- Put a word into the program store at word index `p`, filling with zero bytes up to it: the host's loading of a
program (log entry 3), never an effect of an instruction. -/
def storeWordAt (prog : List Byte) (p : Nat) (w : InstrWord) : List Byte :=
  prog.take (4 * p) ++ List.replicate (4 * p - prog.length) 0 ++ wordBytes w ++ prog.drop (4 * p + 4)

/-- The environment's events with the next fetch answered. -/
def fetchAnswered : List Bool → List Bool
  | true :: rest => false :: rest
  | events => events

end Sys2Proof.Machine
end

