-- ==== Sys2Proof/Machine/Operands.lean ====
section
/-! DEFINITION. The operand forms: the views of a 16-bit pattern, checked register operands, register reads and writes,
and the one address and target form. -/

namespace Sys2Proof.Machine

/-! ### Views of a pattern (spec/00_scope.md R9) -/

/-- `uval(v)`: the unsigned view. -/
def uval (v : Word) : Nat := v.toNat

/-- `sval(v)`: the two's complement view. -/
def sval (v : Word) : Int := if v.toNat < 32768 then v.toNat else (v.toNat : Int) - 65536

/-- `wrap16(n)`: the pattern congruent to `n` modulo 65536. -/
def wrap16 (n : Int) : Word := BitVec.ofInt 16 n

/-! ### Registers (spec/10_state.md R21 to R25) -/

/-- The bank's index check (R25): an index of 16 or more is the fault InvalidRegistry. -/
def checkReg (n : Nat) : Except FaultKind (Fin 16) :=
  if h : n < 16 then .ok ⟨n, h⟩ else .error (.invalidRegistry n)

/-- The value an instruction's read `x[i]` returns (R23): the stored cell, or for register 3 a fresh draw. -/
def readReg (i : Fin 16) (s : State) : Word :=
  if i.val = Config.drawIndex then Config.rand16 s.draws else s.regs[i]

/-- The state after that read: nothing has changed (R23) but that a draw has been spent. -/
def afterRead (i : Fin 16) (s : State) : State :=
  if i.val = Config.drawIndex then { s with draws := s.draws + 1 } else s

/-- `x[i] <- v` (R22): the whole cell is replaced; no register is protected. -/
def writeReg (i : Fin 16) (v : Word) (s : State) : State :=
  { s with regs := s.regs.set i v }

/-- Read a checked register operand once and go on with the value and the state after the read. -/
def withRead (i : Fin 16) (s : State) (k : Word → State → Result) : Result :=
  k (readReg i s) (afterRead i s)

/-! ### Base register plus unsigned offset (spec/42_control_transfer.md R100, spec/43_load_store.md R110) -/

/-- `zext_17(base) + zext_17(off)`: exact, 0 .. 131070, no wrap. -/
def basePlusOffset (base off : Word) : EffAddr :=
  base.setWidth 17 + off.setWidth 17

end Sys2Proof.Machine
end

