-- ==== Sys2Proof/Machine/Alu.lean ====
section
/-! DEFINITION. The arithmetic unit (spec/44_arithmetic.md R120 to R130) and the instructions IADD, ISUB, IMUL, IDIV. -/

namespace Sys2Proof.Machine

/-- `wrap16(l + r + i)` (R122). -/
def aluAdd (l r i : Word) : Word := wrap16 (sval l + sval r + sval i)

/-- `wrap16(l - r - i)` (R123). -/
def aluSub (l r i : Word) : Word := wrap16 (sval l - sval r - sval i)

/-- `wrap16(l * r * i)` (R124). -/
def aluMul (l r i : Word) : Word := wrap16 (sval l * sval r * sval i)

/-- `tdiv(n, d)`, `d != 0`: the quotient rounded toward zero (R126): the magnitude is the floor of the magnitudes'
quotient, the sign positive when the signs agree or `n = 0`. -/
def tdiv (n d : Int) : Int :=
  if n = 0 ∨ (0 < n ↔ 0 < d) then (n.natAbs / d.natAbs : Nat) else -(n.natAbs / d.natAbs : Nat)

/-- One 16-bit division step (R128): the exact quotient reduced to 16 bits. -/
def divStep (n d : Word) : Word := wrap16 (tdiv (sval n) (sval d))

/-- The chained division (R125): both divisors are tested before anything is computed. -/
def aluDiv (l r i : Word) : Except FaultKind Word :=
  if r = 0 ∨ i = 0 then .error .divisionByZero
  else .ok (divStep (divStep l r) i)

/-- The shape of every arithmetic instruction (R120): check the operands, read left then right once each, combine them
with the immediate, write the destination, advance. A fault writes nothing. -/
def arith (alu : Word → Word → Word → Except FaultKind Word) (a b c : Nat) (imm : Word) (s : State) : Result :=
  orRaise (checkReg a) s fun dst =>
  orRaise (checkReg b) s fun left =>
  orRaise (checkReg c) s fun right =>
  withRead left s fun l s1 =>
  withRead right s1 fun r s2 =>
  orRaise (alu l r imm) s2 fun v =>
  .next (advance (writeReg dst v s2))

/-- IADD (R122). -/
def execIadd (a b c : Nat) (imm : Word) (s : State) : Result :=
  arith (fun l r i => .ok (aluAdd l r i)) a b c imm s

/-- ISUB (R123). -/
def execIsub (a b c : Nat) (imm : Word) (s : State) : Result :=
  arith (fun l r i => .ok (aluSub l r i)) a b c imm s

/-- IMUL (R124). -/
def execImul (a b c : Nat) (imm : Word) (s : State) : Result :=
  arith (fun l r i => .ok (aluMul l r i)) a b c imm s

/-- IDIV (R125). -/
def execIdiv (a b c : Nat) (imm : Word) (s : State) : Result :=
  arith aluDiv a b c imm s

end Sys2Proof.Machine
end

