-- ==== Sys2Proof/Machine/Control.lean ====
section
/-! DEFINITION. JUMP and FORK (spec/42_control_transfer.md R100 to R104). -/

namespace Sys2Proof.Machine

/-- JUMP (R101). -/
def execJump (a : Nat) (off : Word) (s : State) : Result :=
  orRaise (checkReg a) s fun reg =>
  withRead reg s fun base s1 =>
  .next (jumpTo (basePlusOffset base off) s1)

/-- FORK (R102): the compare registers are read first, the address register only when the branch is taken. -/
def execFork (a b c : Nat) (off : Word) (s : State) : Result :=
  orRaise (checkReg a) s fun reg =>
  orRaise (checkReg b) s fun cmpA =>
  orRaise (checkReg c) s fun cmpB =>
  withRead cmpA s fun u s1 =>
  withRead cmpB s1 fun w s2 =>
  if u = w then
    withRead reg s2 fun base s3 => .next (jumpTo (basePlusOffset base off) s3)
  else .next (advance s2)

end Sys2Proof.Machine
end

