-- ==== Sys2Proof/Machine/LoadStore.lean ====
section
/-! DEFINITION. LOAD and POOL (spec/43_load_store.md R110 to R114). -/

namespace Sys2Proof.Machine

/-- LOAD (R111): the base is read, then the two bytes, then the destination is written. -/
def execLoad (a b : Nat) (off : Word) (s : State) : Result :=
  orRaise (checkReg a) s fun dst =>
  orRaise (checkReg b) s fun base =>
  withRead base s fun v s1 =>
  orRaise (memRead (basePlusOffset v off) s1) s1 fun x =>
  .next (advance (writeReg dst x s1))

/-- POOL (R112): the data register is read first, then the base. -/
def execPool (a b : Nat) (off : Word) (s : State) : Result :=
  orRaise (checkReg a) s fun src =>
  orRaise (checkReg b) s fun base =>
  withRead src s fun x s1 =>
  withRead base s1 fun v s2 =>
  orRaise (memWrite (basePlusOffset v off) x s2) s2 fun s3 =>
  .next (advance s3)

end Sys2Proof.Machine
end

