-- ==== Sys2Proof/Machine/Output.lean ====
section
/-! DEFINITION. COUT and IOUT (spec/41_output.md R90 to R93). -/

namespace Sys2Proof.Machine

/-- The ASCII byte of a decimal digit, `0x30 .. 0x39` (R92). -/
def digitByte (d : Nat) : Byte := BitVec.ofNat 8 (0x30 + d)

/-- The decimal digits of `n`, most significant first, no leading zero; `fuel` bounds the number of digits. -/
def decDigits : Nat → Nat → List Byte
  | 0, _ => []
  | fuel + 1, n => if n < 10 then [digitByte n] else decDigits fuel (n / 10) ++ [digitByte (n % 10)]

/-- `dec(n)` (R92), for `n` in `-32768 .. 32767`: five digits suffice. -/
def dec (n : Int) : List Byte :=
  if n < 0 then 0x2D :: decDigits 5 n.natAbs else decDigits 5 n.natAbs

/-- The line terminator (R92): one line feed. -/
def lineFeed : Byte := 0x0A

/-- COUT (R90): the low byte, raw. -/
def execCout (a : Nat) (s : State) : Result :=
  orRaise (checkReg a) s fun reg =>
  withRead reg s fun v s1 =>
  .next (advance (emit [v.extractLsb' 0 8] s1))

/-- IOUT (R91): the signed value as a decimal line. -/
def execIout (a : Nat) (s : State) : Result :=
  orRaise (checkReg a) s fun reg =>
  withRead reg s fun v s1 =>
  .next (advance (emit (dec (sval v) ++ [lineFeed]) s1))

end Sys2Proof.Machine
end

