-- ==== Sys2Proof/Machine/Sequencer.lean ====
section
/-! DEFINITION. NOOP, HALT and the illegal instructions (spec/40_sequencer.md R84 to R86). -/

namespace Sys2Proof.Machine

/-- NOOP (R84). -/
def execNoop (s : State) : Result := .next (advance s)

/-- HALT (R85): `pc` keeps the HALT's own word index. -/
def execHalt (s : State) : Result := .next { s with status := .halted }

/-- ERROR(op) (R86): the payload is the opcode value as a byte (spec/30_encoding.md R67). -/
def illegal (op : Byte) (s : State) : Result := .next (raise (.invalidInstruction op) s)

/-- Opcode 12 (R86). -/
def execErrorC (s : State) : Result := illegal 0x0C s

/-- Opcode 13 (R86). -/
def execErrorD (s : State) : Result := illegal 0x0D s

/-- Opcode 14 (R86). -/
def execErrorE (s : State) : Result := illegal 0x0E s

/-- Opcode 15 (R86). -/
def execErrorF (s : State) : Result := illegal 0x0F s

end Sys2Proof.Machine
end

