-- ==== Sys2Proof/Machine/Dispatch.lean ====
section
/-! DEFINITION. The dispatch of spec/40_sequencer.md R80: one arm per constructor. -/

namespace Sys2Proof.Machine

/-- `execute(I)` (R80). -/
def exec (i : Instr) (s : State) : Host.Outcome State Fault Refusal :=
  match i with
  | .noop => Sys2Proof.Machine.execNoop s
  | .halt => Sys2Proof.Machine.execHalt s
  | .cout a => Sys2Proof.Machine.execCout a s
  | .iout a => Sys2Proof.Machine.execIout a s
  | .jump a off => Sys2Proof.Machine.execJump a off s
  | .fork a b c off => Sys2Proof.Machine.execFork a b c off s
  | .load a b off => Sys2Proof.Machine.execLoad a b off s
  | .pool a b off => Sys2Proof.Machine.execPool a b off s
  | .iadd a b c imm => Sys2Proof.Machine.execIadd a b c imm s
  | .isub a b c imm => Sys2Proof.Machine.execIsub a b c imm s
  | .imul a b c imm => Sys2Proof.Machine.execImul a b c imm s
  | .idiv a b c imm => Sys2Proof.Machine.execIdiv a b c imm s
  | .errorC => Sys2Proof.Machine.execErrorC s
  | .errorD => Sys2Proof.Machine.execErrorD s
  | .errorE => Sys2Proof.Machine.execErrorE s
  | .errorF => Sys2Proof.Machine.execErrorF s

end Sys2Proof.Machine
end

