-- ==== Sys2Proof/Machine/Step.lean ====
section
/-! DEFINITION. One step of the sequencer (spec/40_sequencer.md R80, R81). -/

namespace Sys2Proof.Machine

/-- One step (R80): possible only in `Running`; a failed fetch and the end of the store are faults taken by the step
itself (R81); otherwise the decoded instruction runs. -/
def step (s : State) : Host.Outcome State Fault Refusal :=
  match s.status with
  | .halted => .fault .noStepAfterHalt
  | .faulted k => .fault (.noStepAfterFault k)
  | .running =>
    match ifetch s with
    | .err => .next (raise .backingStoreError (afterFetch s))
    | .endOfStore => .next (raise .unexpectedEndOfFile (afterFetch s))
    | .word w => exec (decode w) (afterFetch s)

/-- The state with one table word where `step` fetches next: the word in the program store at `pc`, the run `Running`, the
next fetch answered (log entry 3). -/
def State.withFetchWord (s : State) (nbits w : Nat) : State :=
  { s with
    prog := storeWordAt s.prog s.pc.toNat (BitVec.ofNat 32 (w % 2 ^ nbits))
    status := .running
    storeEvents := fetchAnswered s.storeEvents }

end Sys2Proof.Machine
end

