-- ==== Sys2Proof/Machine/Flags.lean ====
section
/-! DEFINITION. The machine has no flags and no condition codes (spec/10_state.md R33, spec/44_arithmetic.md R129): no
instruction computes one. The only status state is the run status; this file computes its read-only status word (R30). -/

namespace Sys2Proof.Machine

/-- The fault code, 1 to 6 (spec/60_exceptions.md R142). -/
def FaultKind.code : FaultKind → BitVec 3
  | .invalidInstruction _ => 1
  | .invalidRegistry _ => 2
  | .unexpectedEndOfFile => 3
  | .divisionByZero => 4
  | .backingStoreError => 5
  | .outOfBoundsMemoryAccess _ => 6

/-- The 17-bit zero-extended payload, 0 for the codes that have none (spec/10_state.md R30 `INFO`). -/
def FaultKind.info : FaultKind → BitVec 17
  | .invalidInstruction op => op.setWidth 17
  | .invalidRegistry n => BitVec.ofNat 17 n
  | .outOfBoundsMemoryAccess ea => ea
  | .unexpectedEndOfFile | .divisionByZero | .backingStoreError => 0

/-- The status word `INFO[21:5] ++ CAUSE[4:2] ++ STATE[1:0]` (spec/10_state.md R30). -/
def Status.word : Status → BitVec 22
  | .running => 0
  | .halted => 1
  | .faulted k => k.info ++ k.code ++ (2 : BitVec 2)

end Sys2Proof.Machine
end

