-- ==== Sys2Proof/Safety.lean ====
section
/-! DEFINITION. The terms the statements use: what an operand read gives, what an instruction may touch and raise, the
machine's invariant, how a run ends. -/

namespace Sys2Proof.Machine

/-! ### Operand reads (spec/10_state.md R23, R25) -/

/-- What a read of register `i` gives an instruction that has made `k` draws before it: the stored cell, or the draw
after those. -/
def State.operand (s : State) (i : Fin 16) (k : Nat) : Word :=
  if i = 3 then Config.rand16 (s.draws + k) else s.regs[i]

/-- How many draws a read of register `i` makes. -/
def drawsOf (i : Fin 16) : Nat := if i = 3 then 1 else 0

/-- One byte of data memory. -/
def State.byteAt (s : State) (a : Nat) : Byte := s.mem.read a

/-- `L`, the program's length in words (spec/20_memory.md R42). -/
def State.progWords (s : State) : Nat := s.prog.length / 4

/-! ### What an instruction touches and raises -/

/-- The register an instruction writes (the table of spec/10_state.md R25). -/
def destination : Instr → Option Nat
  | .load a _ _ | .iadd a _ _ _ | .isub a _ _ _ | .imul a _ _ _ | .idiv a _ _ _ => some a
  | .noop | .halt | .cout _ | .iout _ | .jump _ _ | .fork _ _ _ _ | .pool _ _ _ | .errorC | .errorD | .errorE | .errorF =>
    none

/-- The registers an instruction may read (the table of spec/10_state.md R25). -/
def sources : Instr → List Nat
  | .noop | .halt | .errorC | .errorD | .errorE | .errorF => []
  | .cout a | .iout a | .jump a _ => [a]
  | .fork a b c _ => [a, b, c]
  | .load _ b _ => [b]
  | .pool a b _ => [a, b]
  | .iadd _ b c _ | .isub _ b c _ | .imul _ b c _ | .idiv _ b c _ => [b, c]

/-- The two output instructions (spec/10_state.md R31). -/
def isOutput : Instr → Bool
  | .cout _ | .iout _ => true
  | _ => false

/-- The two control transfers (spec/42_control_transfer.md R100). -/
def isTransfer : Instr → Bool
  | .jump _ _ | .fork _ _ _ _ => true
  | _ => false

/-- The one store (spec/20_memory.md R45). -/
def isStore : Instr → Bool
  | .pool _ _ _ => true
  | _ => false

/-- Which fault kinds a well-formed instruction can raise (the table of spec/60_exceptions.md R156). -/
def mayRaise : Instr → FaultKind → Bool
  | .load _ _ _, .outOfBoundsMemoryAccess _ => true
  | .pool _ _ _, .outOfBoundsMemoryAccess _ => true
  | .idiv _ _ _ _, .divisionByZero => true
  | .errorC, .invalidInstruction op => op == 0x0C
  | .errorD, .invalidInstruction op => op == 0x0D
  | .errorE, .invalidInstruction op => op == 0x0E
  | .errorF, .invalidInstruction op => op == 0x0F
  | _, _ => false

/-- The bits of a word that its opcode uses (spec/30_encoding.md R63, R64). -/
def usedBits (op : Nat) : InstrWord :=
  match op with
  | 2 | 3 => 0xFF000000
  | 4 => 0xFF00FFFF
  | 6 | 7 => 0xFFF0FFFF
  | 5 | 8 | 9 | 10 | 11 => 0xFFFFFFFF
  | _ => 0xF0000000

/-! ### The machine's invariant -/

/-- A status that a run can show: the payloads of spec/60_exceptions.md R142 for a memory of `memSize` bytes, and no
InvalidRegistry (R144). -/
def Status.legal (memSize : Nat) : Status → Prop
  | .faulted (.invalidInstruction op) => 12 ≤ op.toNat ∧ op.toNat ≤ 15
  | .faulted (.invalidRegistry _) => False
  | .faulted (.outOfBoundsMemoryAccess ea) => ea.toNat ≤ 131070 ∧ memSize < ea.toNat + 2
  | .running | .halted | .faulted .unexpectedEndOfFile | .faulted .divisionByZero | .faulted .backingStoreError => True

/-- What holds of every state between two steps. -/
structure State.Inv (s : State) : Prop where
  /-- data memory keeps its canonical form -/
  mem_wf : s.mem.wf = true
  /-- every listed byte lies in the segment and in reach (spec/20_memory.md R44, R46) -/
  mem_inside : ∀ c ∈ s.mem, c.1 < s.memSize ∧ c.1 < 131072
  /-- `L <= 2^PCW - 1` (spec/20_memory.md R41) -/
  prog_bound : s.progWords ≤ 2 ^ 32 - 1
  /-- the pc never passes both the end of the program and the largest target (spec/10_state.md R28) -/
  pc_bound : s.pc.toNat ≤ max s.progWords 131070
  /-- the payload of a fault is one the machine can raise -/
  status_legal : s.status.legal s.memSize

/-! ### How a run ends (spec/60_exceptions.md R155) -/

/-- `run()` as the host sees it: none while the run is `Running`. -/
def State.hostResult (s : State) : Option (Except FaultKind Unit) :=
  match s.status with
  | .running => none
  | .halted => some (.ok ())
  | .faulted k => some (.error k)

end Sys2Proof.Machine
end

