-- ==== Sys2Proof/Certificates/Slice0/Obligations.lean ====
section
/-! DEFINITION. The statements for the provers. `s.operand i k` is what a read of register `i` gives after `k` draws of
the same instruction; a register operand ranges over `Fin 16`, all the values an encoding admits, and
`InvalidRegistryOperandFaults` says what every other index does. 'Decision D<n>' is a row of spec/92_eei_decisions.md: the
spec's own choice, which the model follows; the log entry of each: D1 to D3 in 11, D4 and D5 in 12, D6 in 8, D7 and D22 in
20, D8 in 21, D9 to D11 in 13, D12 in 14, D13 in 1, D14 in 2, D15 in 17, D16 in 4, D17 in 15, D18 and D19 in 16, D20 in 18,
D21 in 19, D23 in 6, D24 in 9, D26 in 3, D28 in 22. The field
`draws` is the model's own count (log entry 4); no statement rests on a value of `Config.rand16`. -/

open Sys2Proof Sys2Proof.Machine

/-! ### Encoding -/

/-- R61, R65: the decoder's table, with every field a free bit pattern in its place (decisions D1, D2). -/
def Obligations.DecodeReadsEveryField : Prop :=
  ∀ (a b c : BitVec 4) (i : Word),
    decode (0x0#4 ++ a ++ b ++ c ++ i) = .noop ∧
    decode (0x1#4 ++ a ++ b ++ c ++ i) = .halt ∧
    decode (0x2#4 ++ a ++ b ++ c ++ i) = .cout a.toNat ∧
    decode (0x3#4 ++ a ++ b ++ c ++ i) = .iout a.toNat ∧
    decode (0x4#4 ++ a ++ b ++ c ++ i) = .jump a.toNat i ∧
    decode (0x5#4 ++ a ++ b ++ c ++ i) = .fork a.toNat b.toNat c.toNat i ∧
    decode (0x6#4 ++ a ++ b ++ c ++ i) = .load a.toNat b.toNat i ∧
    decode (0x7#4 ++ a ++ b ++ c ++ i) = .pool a.toNat b.toNat i ∧
    decode (0x8#4 ++ a ++ b ++ c ++ i) = .iadd a.toNat b.toNat c.toNat i ∧
    decode (0x9#4 ++ a ++ b ++ c ++ i) = .isub a.toNat b.toNat c.toNat i ∧
    decode (0xA#4 ++ a ++ b ++ c ++ i) = .imul a.toNat b.toNat c.toNat i ∧
    decode (0xB#4 ++ a ++ b ++ c ++ i) = .idiv a.toNat b.toNat c.toNat i ∧
    decode (0xC#4 ++ a ++ b ++ c ++ i) = .errorC ∧
    decode (0xD#4 ++ a ++ b ++ c ++ i) = .errorD ∧
    decode (0xE#4 ++ a ++ b ++ c ++ i) = .errorE ∧
    decode (0xF#4 ++ a ++ b ++ c ++ i) = .errorF

/-- R70: decoding an encoding gives the instruction back, as a word and through its bytes. That the ERROR forms have an
encoding at all is the model's choice (log entry 10). -/
def Obligations.DecodeOfEncodeIsIdentity : Prop :=
  ∀ i : Instr, i.wellFormed = true →
    decode (encode i) = i ∧ decodeBytes (wordBytes (encode i)) = .ok (i, [])

/-- R70: re-encoding a decoded word clears its unused fields and keeps every other bit. For the illegal opcodes this is the
model's choice (log entry 10). -/
def Obligations.EncodeOfDecodeClearsUnusedBits : Prop :=
  ∀ w : InstrWord, encode (decode w) = w &&& usedBits (opField w)

/-- R63, R68: two words decode alike exactly when they agree on the bits the first one's opcode uses
(decision D2). -/
def Obligations.WordsDecodeAlikeExactlyOnUsedBits : Prop :=
  ∀ w v : InstrWord, decode w = decode v ↔ w &&& usedBits (opField w) = v &&& usedBits (opField w)

/-- R25: no word names a register index outside the bank. -/
def Obligations.DecodedRegistersAreInRange : Prop :=
  ∀ w : InstrWord, (decode w).wellFormed = true

/-- R43: the word at a word index is read big-endian from the four bytes at four times that index. -/
def Obligations.InstructionBytesAreBigEndian : Prop :=
  ∀ (prog rest : List Byte) (p : Nat) (b0 b1 b2 b3 : Byte),
    prog.drop (4 * p) = b0 :: b1 :: b2 :: b3 :: rest →
    ∃ w : InstrWord, wordAt prog p = some w ∧
      w.toNat = b0.toNat * 2 ^ 24 + b1.toNat * 2 ^ 16 + b2.toNat * 2 ^ 8 + b3.toNat ∧
      opField w = b0.toNat / 16 ∧ (iField w).toNat = b2.toNat * 256 + b3.toNat

/-- Words of spec/95_test_vectors.md (V-DEC2, V-DEC3, V-DEC7, V-DEC9, V-DEC10, V-DEC11, V-DEC12, V-ENC3). -/
def Obligations.SpecVectorsDecode : Prop :=
  decode 0x0FFFFFFF = .noop ∧ decode 0x1ABCDEF0 = .halt ∧ decode 0x50400005 = .fork 0 4 0 5 ∧
  decode 0x6712FFFF = .load 7 1 0xFFFF ∧ decode 0x8FFFFFFF = .iadd 15 15 15 0xFFFF ∧
  decode 0xB4560000 = .idiv 4 5 6 0 ∧ decode 0xD1234567 = .errorD ∧ encode (.pool 9 10 258) = 0x79A00102

/-! ### The program store and the step -/

/-- R41, R42: a store that holds the words `ws` in order, with or without a fragment after them, answers word `p` of `ws`
and nothing at or past their number; its length in words is their number (the fragment: decision D8). -/
def Obligations.ProgramStoreHoldsWordsInOrder : Prop :=
  ∀ (ws : List InstrWord) (frag : List Byte) (p : Nat), frag.length < 4 →
    wordAt (ws.flatMap wordBytes ++ frag) p = ws[p]? ∧ (ws.flatMap wordBytes ++ frag).length / 4 = ws.length

/-- R80: when the bytes at the pc decode to an instruction, it is well formed and the step is its meaning, at the state
with the environment's answer to this fetch spent. -/
def Obligations.StepRunsDecodedInstruction : Prop :=
  ∀ (s : State) (i : Instr) (rest : List Byte),
    s.status = .running → s.storeEvents.head? ≠ some true →
    decodeBytes (s.prog.drop (4 * s.pc.toNat)) = .ok (i, rest) →
    i.wellFormed = true ∧ step s = exec i { s with storeEvents := s.storeEvents.tail }

/-- R81: the three answers of a fetch. That `s.progWords` leaves out a trailing fragment is the spec's decision D8. -/
def Obligations.FetchFaultsOrRuns : Prop :=
  ∀ s : State, s.status = .running →
    (s.storeEvents.head? = some true →
      step s = .next { s with status := .faulted .backingStoreError, storeEvents := s.storeEvents.tail }) ∧
    (s.storeEvents.head? ≠ some true → s.progWords ≤ s.pc.toNat →
      step s = .next { s with status := .faulted .unexpectedEndOfFile, storeEvents := s.storeEvents.tail }) ∧
    (s.storeEvents.head? ≠ some true → s.pc.toNat < s.progWords →
      ∃ w, wordAt s.prog s.pc.toNat = some w ∧
        step s = exec (decode w) { s with storeEvents := s.storeEvents.tail })

/-- R151, R87: a terminal state has no step; the outcome that says so is the model's (log entry 7). -/
def Obligations.TerminalStatesHaveNoStep : Prop :=
  ∀ s : State,
    (s.status = .halted → step s = .fault .noStepAfterHalt) ∧
    (∀ k, s.status = .faulted k → step s = .fault (.noStepAfterFault k))

/-- R80, R87, R155: a step exists exactly while the run is `Running`, which is exactly while `run()` has not returned: no
program, word or operand stops the model in between. -/
def Obligations.StepExistsExactlyWhileRunning : Prop :=
  ∀ s : State, ((∃ t, step s = .next t) ↔ s.status = .running) ∧ (s.hostResult = none ↔ s.status = .running)

/-- The host's placing of a word (log entry 3): the very next step runs exactly the instruction it decodes to. -/
def Obligations.PlacedWordRunsNext : Prop :=
  ∀ (s : State) (w : Nat), w < 2 ^ 32 →
    step (s.withFetchWord 32 w) =
      exec (decode (BitVec.ofNat 32 w))
        { s.withFetchWord 32 w with storeEvents := (s.withFetchWord 32 w).storeEvents.tail }

/-! ### NOOP, HALT, the illegal opcodes -/

/-- R84: any word of opcode 0 is NOOP, and NOOP advances the pc and nothing else. -/
def Obligations.NoopAdvances : Prop :=
  (∀ w, opField w = 0 → decode w = .noop) ∧ encode .noop = 0x00000000 ∧
  ∀ s : State, exec .noop s = .next { s with pc := s.pc + 1 }

/-- R85: HALT ends the run and changes nothing else; that the pc keeps the HALT's index is the spec's decision D7. -/
def Obligations.HaltEndsRun : Prop :=
  (∀ w, opField w = 1 → decode w = .halt) ∧ encode .halt = 0x10000000 ∧
  ∀ s : State, exec .halt s = .next { s with status := .halted }

/-- R86: the four illegal opcodes raise InvalidInstruction with the opcode value (spec's decision D3) and change nothing
else. -/
def Obligations.IllegalOpcodesFault : Prop :=
  ∀ s : State,
    exec .errorC s = .next { s with status := .faulted (.invalidInstruction 0x0C) } ∧
    exec .errorD s = .next { s with status := .faulted (.invalidInstruction 0x0D) } ∧
    exec .errorE s = .next { s with status := .faulted (.invalidInstruction 0x0E) } ∧
    exec .errorF s = .next { s with status := .faulted (.invalidInstruction 0x0F) }

/-! ### COUT, IOUT -/

/-- R90: COUT emits the low byte of the value read, once, and advances. -/
def Obligations.CoutEmitsLowByte : Prop :=
  (∀ w, opField w = 2 → decode w = .cout (aField w)) ∧
  ∀ (a : Fin 16) (s : State),
    encode (.cout a) = 0x20000000 + BitVec.ofNat 32 (a * 2 ^ 24) ∧
    exec (.cout a) s = .next { s with
      out := s.out ++ [BitVec.ofNat 8 (s.operand a 0).toNat], pc := s.pc + 1, draws := s.draws + drawsOf a }

/-- R91: IOUT emits the decimal text of the signed value read and one line feed (the text format is the spec's decision
D20), and advances. -/
def Obligations.IoutEmitsDecimalLine : Prop :=
  ∀ (a : Fin 16) (s : State),
    exec (.iout a) s = .next { s with
      out := s.out ++ dec (s.operand a 0).toInt ++ [0x0A], pc := s.pc + 1, draws := s.draws + drawsOf a }

/-- R92 (decision D20): `dec` is the shortest signed decimal numeral: a minus sign exactly for a negative value, then the
digits of the magnitude with no leading zero. -/
def Obligations.DecimalTextIsShortestNumeral : Prop :=
  ∀ v : Word, ∃ ds : List Nat,
    ds ≠ [] ∧ (∀ d ∈ ds, d < 10) ∧ (ds.head? = some 0 → ds = [0]) ∧
    ds.foldl (fun n d => 10 * n + d) 0 = v.toInt.natAbs ∧
    dec v.toInt = (if v.toInt < 0 then [0x2D] else []) ++ ds.map (fun d => BitVec.ofNat 8 (0x30 + d)) ∧
    (dec v.toInt).length ≤ 6

/-! ### JUMP, FORK -/

/-- R101, R100 (decisions D4, D5): JUMP sets the pc to the exact unsigned sum of the value read and the offset. -/
def Obligations.JumpSetsPc : Prop :=
  ∀ (a : Fin 16) (off : Word) (s : State), ∃ p : WordIndex,
    p.toNat = (s.operand a 0).toNat + off.toNat ∧
    exec (.jump a off) s = .next { s with pc := p, draws := s.draws + drawsOf a }

/-- R102, R100 (decisions D4, D5): FORK compares the patterns of its two compare registers, each read once; taken, it
reads the base register and sets the pc to the exact unsigned sum; not taken, it advances and reads no third register
(no draw for it: the model's choice, log entry 5). -/
def Obligations.ForkBranchesOnEquality : Prop :=
  ∀ (a b c : Fin 16) (off : Word) (s : State),
    (s.operand b 0 = s.operand c (drawsOf b) →
      ∃ p : WordIndex, p.toNat = (s.operand a (drawsOf b + drawsOf c)).toNat + off.toNat ∧
        exec (.fork a b c off) s = .next { s with pc := p, draws := s.draws + drawsOf b + drawsOf c + drawsOf a }) ∧
    (s.operand b 0 ≠ s.operand c (drawsOf b) →
      exec (.fork a b c off) s = .next { s with pc := s.pc + 1, draws := s.draws + drawsOf b + drawsOf c })

/-- R83: an instruction that leaves the run `Running` and does not redirect advances the pc by one. -/
def Obligations.SequentialInstructionsAdvance : Prop :=
  (∀ (i : Instr) (s t : State), isTransfer i = false → exec i s = .next t → t.status = .running → t.pc = s.pc + 1) ∧
  (∀ (a b c : Fin 16) (off : Word) (s t : State), s.operand b 0 ≠ s.operand c (drawsOf b) →
    exec (.fork a b c off) s = .next t → t.pc = s.pc + 1)

/-- R28 (decision D5): under the invariant the pc never wraps. A step that ends the run leaves it; a step that stays
`Running` adds one to it AS A NUMBER, by any instruction but JUMP and FORK and by a FORK whose compare fails; and a JUMP or
FORK adds one or sets a target of at most 131070 (which target: `JumpSetsPc`, `ForkBranchesOnEquality`). -/
def Obligations.PcNeverWraps : Prop :=
  ∀ s t : State, s.Inv → step s = .next t →
    (t.status ≠ .running → t.pc = s.pc) ∧
    (t.status = .running → ∃ w, wordAt s.prog s.pc.toNat = some w ∧
      (isTransfer (decode w) = false → t.pc.toNat = s.pc.toNat + 1) ∧
      (∀ (a b c : Fin 16) (off : Word), decode w = .fork a b c off →
        s.operand b 0 ≠ s.operand c (drawsOf b) → t.pc.toNat = s.pc.toNat + 1) ∧
      (isTransfer (decode w) = true → t.pc.toNat = s.pc.toNat + 1 ∨ t.pc.toNat ≤ 131070))

/-! ### LOAD, POOL and data memory -/

/-- R111, R47, R110 (decisions D4, D5, D9 to D11): an access inside the segment loads the two bytes, high byte first. -/
def Obligations.LoadReadsTwoBytes : Prop :=
  ∀ (a b : Fin 16) (off : Word) (s : State) (ea : Nat),
    ea = (s.operand b 0).toNat + off.toNat → ea + 2 ≤ s.memSize →
    ∃ v : Word, v.toNat = (s.byteAt ea).toNat * 256 + (s.byteAt (ea + 1)).toNat ∧
      exec (.load a b off) s = .next { s with
        regs := s.regs.set a v, pc := s.pc + 1, draws := s.draws + drawsOf b }

/-- R111, R148 (decisions D5, D9, D11): an access that touches a byte outside the segment writes no register and raises the
fault with the first byte's address. That the base's draw stays spent is the model's choice (log entry 5). -/
def Obligations.LoadOutsideSegmentFaults : Prop :=
  ∀ (a b : Fin 16) (off : Word) (s : State) (ea : EffAddr),
    ea.toNat = (s.operand b 0).toNat + off.toNat → s.memSize < ea.toNat + 2 →
    exec (.load a b off) s = .next { s with
      status := .faulted (.outOfBoundsMemoryAccess ea), draws := s.draws + drawsOf b }

/-- R112, R48, R110 (decisions D4, D5, D9 to D11): an access inside the segment stores the value's two bytes, high byte
first, and no other byte of memory changes. -/
def Obligations.PoolWritesTwoBytes : Prop :=
  ∀ (a b : Fin 16) (off : Word) (s : State) (ea : Nat),
    s.mem.wf = true → ea = (s.operand b (drawsOf a)).toNat + off.toNat → ea + 2 ≤ s.memSize →
    ∃ m : Memory,
      exec (.pool a b off) s = .next { s with
        mem := m, pc := s.pc + 1, draws := s.draws + drawsOf a + drawsOf b } ∧
      (m.read ea).toNat = (s.operand a 0).toNat / 256 ∧ (m.read (ea + 1)).toNat = (s.operand a 0).toNat % 256 ∧
      ∀ x, x ≠ ea → x ≠ ea + 1 → m.read x = s.byteAt x

/-- R112, R148 (decisions D5, D9, D11): an access that touches a byte outside the segment writes no byte and raises the
fault with the first byte's address. That the draws of its reads stay spent is the model's choice (log entry 5). -/
def Obligations.PoolOutsideSegmentFaults : Prop :=
  ∀ (a b : Fin 16) (off : Word) (s : State) (ea : EffAddr),
    ea.toNat = (s.operand b (drawsOf a)).toNat + off.toNat → s.memSize < ea.toNat + 2 →
    exec (.pool a b off) s = .next { s with
      status := .faulted (.outOfBoundsMemoryAccess ea), draws := s.draws + drawsOf a + drawsOf b }

/-- R49, R54 (decision D9): a stored value is loaded back, and of two stores one byte apart the later wins the shared byte. -/
def Obligations.StoresOverlapByteByByte : Prop :=
  ∀ (m : Memory) (a : Nat) (v w : Word), m.wf = true →
    (m.writeWord a v).readWord a = v ∧
    ((m.writeWord a v).writeWord (a + 1) w).readWord a = v.extractLsb' 8 8 ++ w.extractLsb' 8 8

/-- Two memories in canonical form that read alike at every address are the same memory. -/
def Obligations.CanonicalMemoryIsUnique : Prop :=
  ∀ m n : Memory, m.wf = true → n.wf = true → (∀ a, m.read a = n.read a) → m = n

/-- R46 (decision D5): a memory size of 131072 or more behaves as any other such size. -/
def Obligations.SizesBeyondReachAreAlike : Prop :=
  ∀ (s t : State) (size : Nat), 131072 ≤ s.memSize → 131072 ≤ size → step s = .next t →
    step { s with memSize := size } = .next { t with memSize := size }

/-! ### Arithmetic -/

/-- R122, R127: IADD writes left + right + immediate modulo 65536 and advances. -/
def Obligations.IaddWritesSum : Prop :=
  (∀ w, opField w = 8 → decode w = .iadd (aField w) (bField w) (cField w) (iField w)) ∧
  ∀ (a b c : Fin 16) (imm : Word) (s : State),
    exec (.iadd a b c imm) s = .next { s with
      regs := s.regs.set a (s.operand b 0 + s.operand c (drawsOf b) + imm)
      pc := s.pc + 1, draws := s.draws + drawsOf b + drawsOf c }

/-- R123, R127: ISUB writes left - right - immediate modulo 65536 and advances. -/
def Obligations.IsubWritesDifference : Prop :=
  (∀ w, opField w = 9 → decode w = .isub (aField w) (bField w) (cField w) (iField w)) ∧
  ∀ (a b c : Fin 16) (imm : Word) (s : State),
    exec (.isub a b c imm) s = .next { s with
      regs := s.regs.set a (s.operand b 0 - s.operand c (drawsOf b) - imm)
      pc := s.pc + 1, draws := s.draws + drawsOf b + drawsOf c }

/-- R124, R127: IMUL writes the low 16 bits of left * right * immediate and advances. -/
def Obligations.ImulWritesProduct : Prop :=
  (∀ w, opField w = 10 → decode w = .imul (aField w) (bField w) (cField w) (iField w)) ∧
  ∀ (a b c : Fin 16) (imm : Word) (s : State),
    exec (.imul a b c imm) s = .next { s with
      regs := s.regs.set a (s.operand b 0 * s.operand c (drawsOf b) * imm)
      pc := s.pc + 1, draws := s.draws + drawsOf b + drawsOf c }

/-- R125 (decisions D17 to D19): with both divisors nonzero IDIV writes the chained signed quotient, each step truncating
toward zero and wrapping to 16 bits, and advances. -/
def Obligations.IdivWritesChainedQuotient : Prop :=
  ∀ (a b c : Fin 16) (imm : Word) (s : State),
    s.operand c (drawsOf b) ≠ 0 → imm ≠ 0 →
    exec (.idiv a b c imm) s = .next { s with
      regs := s.regs.set a (((s.operand b 0).sdiv (s.operand c (drawsOf b))).sdiv imm)
      pc := s.pc + 1, draws := s.draws + drawsOf b + drawsOf c }

/-- R125, R146: a zero right operand or a zero immediate raises DivisionByZero whatever the left operand, the destination
is not written, and no other instruction raises it. That the draws of its reads stay spent is the model's choice (log entry
5). -/
def Obligations.IdivByZeroFaults : Prop :=
  (∀ (a b c : Fin 16) (imm : Word) (s : State),
    s.operand c (drawsOf b) = 0 ∨ imm = 0 →
    exec (.idiv a b c imm) s = .next { s with
      status := .faulted .divisionByZero, draws := s.draws + drawsOf b + drawsOf c }) ∧
  (∀ (i : Instr) (s t : State), s.status = .running → exec i s = .next t → t.status = .faulted .divisionByZero →
    ∃ a b c imm, i = .idiv a b c imm)

/-- R126, R128 (decisions D17, D18): a division step gives the quotient rounded toward zero, and the one quotient that does
not fit wraps. -/
def Obligations.DivisionRoundsTowardZero : Prop :=
  (∀ n d : Word, d ≠ 0 → ¬(n = 0x8000 ∧ d = 0xFFFF) →
    let q := (divStep n d).toInt
    q.natAbs * d.toInt.natAbs ≤ n.toInt.natAbs ∧ n.toInt.natAbs < q.natAbs * d.toInt.natAbs + d.toInt.natAbs ∧
    0 ≤ q * (n.toInt * d.toInt)) ∧
  divStep 0x8000 0xFFFF = 0x8000

/-- R127: for add, subtract and multiply the signed and the unsigned view of any operand, and reducing the intermediate
result or not, give the same pattern. -/
def Obligations.SignednessIsIrrelevantToWrap : Prop :=
  ∀ l r i : Word,
    aluAdd l r i = BitVec.ofNat 16 (l.toNat + r.toNat + i.toNat) ∧
    aluSub l r i = BitVec.ofInt 16 ((l.toNat : Int) - r.toNat - i.toNat) ∧
    aluMul l r i = BitVec.ofNat 16 (l.toNat * r.toNat * i.toNat) ∧
    aluAdd l r i = aluAdd (aluAdd l r 0) 0 i ∧
    aluSub l r i = aluSub (aluSub l r 0) 0 i ∧
    aluMul l r i = aluMul (aluMul l r 1) 1 i

/-! ### Registers -/

/-- R22, R23: a write replaces one cell and no other; a read of any register but 3 gives the stored cell and changes
nothing; a read of register 3 gives the next draw, whatever the cell holds. That no register is protected is decision D15,
the draw decision D16; that draws are counted is the model's choice (log entry 4). -/
def Obligations.RegisterBankReadsAndWrites : Prop :=
  ∀ (s : State) (i j : Fin 16) (v : Word),
    (i ≠ 3 → readReg i (writeReg i v s) = v) ∧
    (i ≠ j → readReg j (writeReg i v s) = readReg j s) ∧
    (i ≠ 3 → readReg i s = s.regs[i] ∧ afterRead i s = s) ∧
    (readReg 3 s = Config.rand16 s.draws ∧ afterRead 3 s = { s with draws := s.draws + 1 })

/-- R144, R149 (decision D22): an operand index of 16 or more raises InvalidRegistry with the first such index in the order `a`, `b`, `c`,
before any other fault, and changes nothing else. -/
def Obligations.InvalidRegistryOperandFaults : Prop :=
  ∀ (i : Instr) (s : State),
    (i.wellFormed = false ↔ ∃ n, i.badRegistry = some n) ∧
    (∀ n, i.badRegistry = some n → 16 ≤ n ∧ exec i s = .next { s with status := .faulted (.invalidRegistry n) })

/-- R144: no run raises InvalidRegistry. -/
def Obligations.InvalidRegistryNeverRaisedByWords : Prop :=
  ∀ (s t : State) (n : Nat), step s = .next t → t.status ≠ .faulted (.invalidRegistry n)

/-- R21, R23 (decision D16): the cell behind register 3 is never observable: two states that differ in it alone step to states that
differ in it alone. -/
def Obligations.HiddenCellIsUnobservable : Prop :=
  ∀ (s t : State) (v : Word), step s = .next t →
    ∃ v' : Word, step { s with regs := s.regs.set 3 v } = .next { t with regs := t.regs.set 3 v' }

/-- R23, R63 (decisions D2, D16; the count is log entry 4's): an instruction that reads no register 3 neither uses nor spends a draw. -/
def Obligations.NoDrawWithoutRegisterThree : Prop :=
  ∀ (i : Instr) (s t : State) (d : Nat), 3 ∉ sources i → exec i s = .next t →
    t.draws = s.draws ∧ exec i { s with draws := d } = .next { t with draws := d }

/-! ### Frames -/

/-- R25, R129: LOAD, IADD, ISUB, IMUL, IDIV change no register but their destination, no byte of memory, no output, no
parameter. -/
def Obligations.RegisterWritersFrame : Prop :=
  ∀ (i : Instr) (a : Nat) (s t : State), destination i = some a → exec i s = .next t →
    (∀ n : Fin 16, n.val ≠ a → t.regs[n] = s.regs[n]) ∧ (∀ x, t.byteAt x = s.byteAt x) ∧
    t.out = s.out ∧ t.memSize = s.memSize ∧ t.prog = s.prog ∧ t.storeEvents = s.storeEvents ∧
    (t.status = s.status ∨ (∃ k, t.status = .faulted k) ∧ t.regs = s.regs ∧ t.pc = s.pc)

/-- R48, R112: POOL changes no register, no output, no parameter, and no byte of memory outside the two bytes at the
effective address. -/
def Obligations.PoolFrame : Prop :=
  ∀ (a b : Fin 16) (off : Word) (s t : State), s.mem.wf = true → exec (.pool a b off) s = .next t →
    (∀ ea, ea = (basePlusOffset (readReg b (afterRead a s)) off).toNat →
      ∀ x, x ≠ ea → x ≠ ea + 1 → t.byteAt x = s.byteAt x) ∧
    t.regs = s.regs ∧ t.out = s.out ∧ t.memSize = s.memSize ∧ t.prog = s.prog ∧ t.storeEvents = s.storeEvents ∧
    (t.status = s.status ∨ (∃ k, t.status = .faulted k) ∧ t.mem = s.mem ∧ t.pc = s.pc)

/-- R25, R31: NOOP, HALT, COUT, IOUT, JUMP, FORK and the illegal opcodes change no register, no byte of memory, no
parameter; only COUT and IOUT touch the output, and they only append. -/
def Obligations.NonWritersFrame : Prop :=
  ∀ (i : Instr) (s t : State), destination i = none → isStore i = false → exec i s = .next t →
    t.regs = s.regs ∧ (∀ x, t.byteAt x = s.byteAt x) ∧ t.memSize = s.memSize ∧ t.prog = s.prog ∧
    t.storeEvents = s.storeEvents ∧ s.out <+: t.out ∧ (isOutput i = false → t.out = s.out) ∧
    (isOutput i = true ∨ isTransfer i = true → i.wellFormed = true → t.status = s.status)

/-- R31 (decisions D20, D28): over any step the output only grows, by at most seven bytes, and only COUT and IOUT append. -/
def Obligations.OutputIsAppendOnly : Prop :=
  ∀ s t : State, step s = .next t →
    ∃ bs : List Byte, t.out = s.out ++ bs ∧ bs.length ≤ 7 ∧
      (bs ≠ [] → ∃ w, wordAt s.prog s.pc.toNat = some w ∧ (opField w = 2 ∨ opField w = 3))

/-- R41, R56, R172: no step changes the program store or the memory size. -/
def Obligations.ProgramAndMemorySizeAreFixed : Prop :=
  ∀ s t : State, step s = .next t → t.prog = s.prog ∧ t.memSize = s.memSize

/-! ### Faults and status -/

/-- R150 (decision D22): a step that faults changes the status and nothing else of the spec's state; the draws its reads
made are spent, which is the model's choice (log entry 5). -/
def Obligations.FaultsArePrecise : Prop :=
  ∀ (s t : State) (k : FaultKind), step s = .next t → t.status = .faulted k →
    s.draws ≤ t.draws ∧
    t = { s with status := .faulted k, storeEvents := s.storeEvents.tail, draws := t.draws }

/-- R156: which instruction can raise what (decision D3). -/
def Obligations.FaultsMatchInstruction : Prop :=
  ∀ (i : Instr) (s t : State) (k : FaultKind), i.wellFormed = true → s.status = .running → exec i s = .next t →
    t.status = .faulted k → mayRaise i k = true

/-- R30, R85 (decision D7): the run is `Halted` after a step exactly by executing HALT, which changes nothing else. -/
def Obligations.HaltedOnlyByHalt : Prop :=
  ∀ s t : State, step s = .next t → t.status = .halted →
    t = { s with status := .halted, storeEvents := s.storeEvents.tail } ∧
    ∃ w, wordAt s.prog s.pc.toNat = some w ∧ opField w = 1

/-- R30, R142 (decision D21): the status words of vector V-FLT5, all of them. -/
def Obligations.StatusWordValues : Prop :=
  Status.running.word = 0x00 ∧ Status.halted.word = 0x01 ∧
  (Status.faulted (.invalidInstruction 0x0C)).word = 0x186 ∧ (Status.faulted (.invalidInstruction 0x0D)).word = 0x1A6 ∧
  (Status.faulted (.invalidInstruction 0x0E)).word = 0x1C6 ∧ (Status.faulted (.invalidInstruction 0x0F)).word = 0x1E6 ∧
  (Status.faulted .unexpectedEndOfFile).word = 0x0E ∧ (Status.faulted .divisionByZero).word = 0x12 ∧
  (Status.faulted .backingStoreError).word = 0x16 ∧
  (∀ ea : EffAddr, (Status.faulted (.outOfBoundsMemoryAccess ea)).word.toNat = 0x1A + 32 * ea.toNat) ∧
  (∀ n, n < 2 ^ 17 → (Status.faulted (.invalidRegistry n)).word.toNat = 0x0A + 32 * n)

/-- R30 (decision D21): the status word loses nothing of a status that a run can show. -/
def Obligations.StatusWordDeterminesStatus : Prop :=
  ∀ (size : Nat) (p q : Status), p.legal size → q.legal size → p.word = q.word → p = q

/-! ### Reset and the invariant -/

/-- R171, R24: the state after reset, for every image, memory size and program, and under the defaults of `State.reset`
(the memory size and the empty program there are the model's choice, log entries 1 and 3; zeroed memory is decision D12). -/
def Obligations.ResetLeavesInitialState : Prop :=
  (∀ (image : Vector Word 16) (size : Nat) (prog : List Byte) (events : List Bool) (d : Nat),
    let s := State.resetWith image size prog events d
    s.regs = image ∧ s.pc = 0 ∧ s.status = .running ∧ (∀ a, s.byteAt a = 0x00) ∧ s.out = [] ∧
    s.memSize = size ∧ s.prog = prog) ∧
  State.reset.regs[0] = 0x0000 ∧ State.reset.regs[1] = 0x0001 ∧ State.reset.regs[2] = 0xFFFF ∧
  (∀ n : Fin 16, 3 ≤ n.val → State.reset.regs[n] = 0x0000) ∧ State.reset.pc = 0 ∧ State.reset.status = .running

/-- The invariant holds at reset, for every choice of the host's inputs within R41's bound on the program. -/
def Obligations.ResetMeetsInvariant : Prop :=
  State.reset.Inv ∧
  ∀ (image : Vector Word 16) (size : Nat) (prog : List Byte) (events : List Bool) (d : Nat),
    prog.length / 4 ≤ 2 ^ 32 - 1 → (State.resetWith image size prog events d).Inv

/-- Every step keeps the invariant: canonical memory inside the segment, a program within its bound, a pc of at most the
larger of the program's length and 131070 (R28; that no step wraps it is `PcNeverWraps`), a legal status. -/
def Obligations.EveryStepKeepsInvariant : Prop :=
  ∀ s t : State, s.Inv → step s = .next t → t.Inv
end

