-- ==== Sys2Proof/Laws/State.lean ====
section
/-! SUPPORT. One lemma per field per update of `State`, so that no later proof unfolds a record update. -/

namespace Sys2Proof.Machine

variable (s : State)

@[simp] theorem raise_regs (k : FaultKind) : (raise k s).regs = s.regs := rfl
@[simp] theorem raise_pc (k : FaultKind) : (raise k s).pc = s.pc := rfl
@[simp] theorem raise_status (k : FaultKind) : (raise k s).status = .faulted k := rfl
@[simp] theorem raise_mem (k : FaultKind) : (raise k s).mem = s.mem := rfl
@[simp] theorem raise_out (k : FaultKind) : (raise k s).out = s.out := rfl
@[simp] theorem raise_memSize (k : FaultKind) : (raise k s).memSize = s.memSize := rfl
@[simp] theorem raise_prog (k : FaultKind) : (raise k s).prog = s.prog := rfl
@[simp] theorem raise_storeEvents (k : FaultKind) : (raise k s).storeEvents = s.storeEvents := rfl
@[simp] theorem raise_draws (k : FaultKind) : (raise k s).draws = s.draws := rfl

@[simp] theorem advance_regs : (advance s).regs = s.regs := rfl
@[simp] theorem advance_pc : (advance s).pc = s.pc + 1 := rfl
@[simp] theorem advance_status : (advance s).status = s.status := rfl
@[simp] theorem advance_mem : (advance s).mem = s.mem := rfl
@[simp] theorem advance_out : (advance s).out = s.out := rfl
@[simp] theorem advance_memSize : (advance s).memSize = s.memSize := rfl
@[simp] theorem advance_prog : (advance s).prog = s.prog := rfl
@[simp] theorem advance_storeEvents : (advance s).storeEvents = s.storeEvents := rfl
@[simp] theorem advance_draws : (advance s).draws = s.draws := rfl

@[simp] theorem jumpTo_regs (target : EffAddr) : (jumpTo target s).regs = s.regs := rfl
@[simp] theorem jumpTo_pc (target : EffAddr) : (jumpTo target s).pc = target.setWidth 32 := rfl
@[simp] theorem jumpTo_status (target : EffAddr) : (jumpTo target s).status = s.status := rfl
@[simp] theorem jumpTo_mem (target : EffAddr) : (jumpTo target s).mem = s.mem := rfl
@[simp] theorem jumpTo_out (target : EffAddr) : (jumpTo target s).out = s.out := rfl
@[simp] theorem jumpTo_memSize (target : EffAddr) : (jumpTo target s).memSize = s.memSize := rfl
@[simp] theorem jumpTo_prog (target : EffAddr) : (jumpTo target s).prog = s.prog := rfl
@[simp] theorem jumpTo_storeEvents (target : EffAddr) : (jumpTo target s).storeEvents = s.storeEvents := rfl
@[simp] theorem jumpTo_draws (target : EffAddr) : (jumpTo target s).draws = s.draws := rfl

@[simp] theorem emit_regs (bs : List Byte) : (emit bs s).regs = s.regs := rfl
@[simp] theorem emit_pc (bs : List Byte) : (emit bs s).pc = s.pc := rfl
@[simp] theorem emit_status (bs : List Byte) : (emit bs s).status = s.status := rfl
@[simp] theorem emit_mem (bs : List Byte) : (emit bs s).mem = s.mem := rfl
@[simp] theorem emit_out (bs : List Byte) : (emit bs s).out = s.out ++ bs := rfl
@[simp] theorem emit_memSize (bs : List Byte) : (emit bs s).memSize = s.memSize := rfl
@[simp] theorem emit_prog (bs : List Byte) : (emit bs s).prog = s.prog := rfl
@[simp] theorem emit_storeEvents (bs : List Byte) : (emit bs s).storeEvents = s.storeEvents := rfl
@[simp] theorem emit_draws (bs : List Byte) : (emit bs s).draws = s.draws := rfl

@[simp] theorem writeReg_regs (i : Fin 16) (v : Word) : (writeReg i v s).regs = s.regs.set i v := rfl
@[simp] theorem writeReg_pc (i : Fin 16) (v : Word) : (writeReg i v s).pc = s.pc := rfl
@[simp] theorem writeReg_status (i : Fin 16) (v : Word) : (writeReg i v s).status = s.status := rfl
@[simp] theorem writeReg_mem (i : Fin 16) (v : Word) : (writeReg i v s).mem = s.mem := rfl
@[simp] theorem writeReg_out (i : Fin 16) (v : Word) : (writeReg i v s).out = s.out := rfl
@[simp] theorem writeReg_memSize (i : Fin 16) (v : Word) : (writeReg i v s).memSize = s.memSize := rfl
@[simp] theorem writeReg_prog (i : Fin 16) (v : Word) : (writeReg i v s).prog = s.prog := rfl
@[simp] theorem writeReg_storeEvents (i : Fin 16) (v : Word) : (writeReg i v s).storeEvents = s.storeEvents := rfl
@[simp] theorem writeReg_draws (i : Fin 16) (v : Word) : (writeReg i v s).draws = s.draws := rfl

@[simp] theorem afterFetch_regs : (afterFetch s).regs = s.regs := rfl
@[simp] theorem afterFetch_pc : (afterFetch s).pc = s.pc := rfl
@[simp] theorem afterFetch_status : (afterFetch s).status = s.status := rfl
@[simp] theorem afterFetch_mem : (afterFetch s).mem = s.mem := rfl
@[simp] theorem afterFetch_out : (afterFetch s).out = s.out := rfl
@[simp] theorem afterFetch_memSize : (afterFetch s).memSize = s.memSize := rfl
@[simp] theorem afterFetch_prog : (afterFetch s).prog = s.prog := rfl
@[simp] theorem afterFetch_storeEvents : (afterFetch s).storeEvents = s.storeEvents.tail := rfl
@[simp] theorem afterFetch_draws : (afterFetch s).draws = s.draws := rfl

@[simp] theorem afterRead_regs (i : Fin 16) : (afterRead i s).regs = s.regs := by
  unfold afterRead; split <;> rfl
@[simp] theorem afterRead_pc (i : Fin 16) : (afterRead i s).pc = s.pc := by
  unfold afterRead; split <;> rfl
@[simp] theorem afterRead_status (i : Fin 16) : (afterRead i s).status = s.status := by
  unfold afterRead; split <;> rfl
@[simp] theorem afterRead_mem (i : Fin 16) : (afterRead i s).mem = s.mem := by
  unfold afterRead; split <;> rfl
@[simp] theorem afterRead_out (i : Fin 16) : (afterRead i s).out = s.out := by
  unfold afterRead; split <;> rfl
@[simp] theorem afterRead_memSize (i : Fin 16) : (afterRead i s).memSize = s.memSize := by
  unfold afterRead; split <;> rfl
@[simp] theorem afterRead_prog (i : Fin 16) : (afterRead i s).prog = s.prog := by
  unfold afterRead; split <;> rfl
@[simp] theorem afterRead_storeEvents (i : Fin 16) : (afterRead i s).storeEvents = s.storeEvents := by
  unfold afterRead; split <;> rfl
@[simp] theorem afterRead_draws (i : Fin 16) : (afterRead i s).draws = s.draws + drawsOf i := by
  unfold afterRead drawsOf Config.drawIndex
  have h : i.val = 3 ↔ i = 3 := by simp [Fin.ext_iff]
  simp only [h]
  split <;> rfl

/-- A read changes the draw counter alone. -/
theorem afterRead_eq (i : Fin 16) : afterRead i s = { s with draws := s.draws + drawsOf i } := by
  unfold afterRead drawsOf Config.drawIndex
  have h : i.val = 3 ↔ i = 3 := by simp [Fin.ext_iff]
  simp only [h]
  split <;> rfl

end Sys2Proof.Machine
end

