-- ==== Sys2Proof/Laws/Operands.lean ====
section
/-! SUPPORT. What the operand forms give: checked indices, reads and draws, the views of a pattern, the address sum. -/

namespace Sys2Proof.Machine

@[simp] theorem checkReg_fin (i : Fin 16) : checkReg i.val = .ok i := by
  simp [checkReg, i.isLt]

theorem checkReg_of_lt {n : Nat} (h : n < 16) : checkReg n = .ok ⟨n, h⟩ := by
  simp [checkReg, h]

theorem checkReg_of_ge {n : Nat} (h : 16 ≤ n) : checkReg n = .error (.invalidRegistry n) := by
  simp [checkReg, Nat.not_lt.mpr h]

/-- All that the index check can answer. -/
theorem checkReg_cases (n : Nat) :
    (∃ i : Fin 16, n = i.val ∧ checkReg n = .ok i) ∨ (16 ≤ n ∧ checkReg n = .error (.invalidRegistry n)) := by
  rcases Nat.lt_or_ge n 16 with h | h
  · exact .inl ⟨⟨n, h⟩, rfl, checkReg_of_lt h⟩
  · exact .inr ⟨h, checkReg_of_ge h⟩

@[simp] theorem orRaise_ok {α : Type} (v : α) (s : State) (k : α → Result) : orRaise (.ok v) s k = k v := rfl

@[simp] theorem orRaise_error {α : Type} (f : FaultKind) (s : State) (k : α → Result) :
    orRaise (.error f) s k = .next (raise f s) := rfl

/-- All that a checked operation can lead to. -/
theorem orRaise_next {α : Type} {e : Except FaultKind α} {s t : State} {k : α → Result}
    (h : orRaise e s k = .next t) : (∃ v, e = .ok v ∧ k v = .next t) ∨ (∃ f, e = .error f ∧ t = raise f s) := by
  cases e with
  | ok v => exact .inl ⟨v, rfl, h⟩
  | error f =>
    simp only [orRaise_error, Host.Outcome.next.injEq] at h
    exact .inr ⟨f, rfl, h.symm⟩

/-- A read gives the operand as the statements name it. -/
theorem readReg_eq_operand (i : Fin 16) (s : State) : readReg i s = s.operand i 0 := by
  by_cases h : i = 3
  · subst h; rfl
  · have h' : i.val ≠ 3 := fun e => h (Fin.ext e)
    simp [readReg, State.operand, Config.drawIndex, h, h']

/-- An operand depends on the registers and the draw counter alone. -/
theorem operand_afterRead (i j : Fin 16) (s : State) (k : Nat) :
    (afterRead i s).operand j k = s.operand j (drawsOf i + k) := by
  simp [State.operand, Nat.add_assoc]

/-- A second read gives the operand after the draws of the first. -/
theorem readReg_afterRead (i j : Fin 16) (s : State) : readReg j (afterRead i s) = s.operand j (drawsOf i) := by
  rw [readReg_eq_operand, operand_afterRead, Nat.add_zero]

@[simp] theorem withRead_apply (i : Fin 16) (s : State) (k : Word → State → Result) :
    withRead i s k = k (s.operand i 0) (afterRead i s) := by
  rw [← readReg_eq_operand]; rfl

/-- The signed view is two's complement. -/
theorem sval_eq_toInt (v : Word) : sval v = v.toInt := by
  rw [BitVec.toInt_eq_toNat_cond]
  unfold sval
  split <;> split <;> omega

/-- `wrap16` is congruent to its argument modulo 65536. -/
theorem wrap16_toNat (n : Int) : ((wrap16 n).toNat : Int) = n % 65536 := by
  simp [wrap16]
  omega

/-- The address sum is exact. -/
theorem basePlusOffset_toNat (base off : Word) : (basePlusOffset base off).toNat = base.toNat + off.toNat := by
  have h1 := base.isLt
  have h2 := off.isLt
  simp only [basePlusOffset, BitVec.toNat_add, BitVec.toNat_setWidth]
  omega

theorem basePlusOffset_le (base off : Word) : (basePlusOffset base off).toNat ≤ 131070 := by
  have h1 := base.isLt
  have h2 := off.isLt
  rw [basePlusOffset_toNat]
  omega

/-- A target enters the pc as the number it is. -/
theorem jumpTo_pc_toNat (target : EffAddr) (s : State) : (jumpTo target s).pc.toNat = target.toNat := by
  have h := target.isLt
  simp only [jumpTo_pc, BitVec.toNat_setWidth]
  omega

end Sys2Proof.Machine
end

