-- ==== Sys2Proof/Laws/Memory.lean ====
section
/-! SUPPORT. Data memory: every operation keeps the canonical form, a read after a write, the bounds check. -/

namespace Sys2Proof.Machine

/-- A canonical memory from a higher address on is one from a lower address on. -/
theorem Memory.wfFrom_mono {lo hi : Nat} (h : lo ≤ hi) : ∀ {m : Memory}, m.wfFrom hi = true → m.wfFrom lo = true
  | [], _ => rfl
  | (a, v) :: rest, hm => by
    simp only [Memory.wfFrom, Bool.and_eq_true, decide_eq_true_eq] at hm ⊢
    exact ⟨⟨by omega, hm.1.2⟩, hm.2⟩

/-- Below its first address a canonical memory lists nothing. -/
theorem Memory.read_below {lo a : Nat} (h : a < lo) :
    ∀ {m : Memory}, m.wfFrom lo = true → m.read a = Memory.unlisted
  | [], _ => rfl
  | (b, v) :: rest, hm => by
    simp only [Memory.wfFrom, Bool.and_eq_true, decide_eq_true_eq] at hm
    have hb : b ≠ a := by omega
    simp only [Memory.read, if_neg hb]
    exact Memory.read_below (by omega) hm.2

/-- One entry put before what follows it. -/
theorem Memory.wfFrom_entry {lo a : Nat} {v : Byte} {m : Memory} (ha : lo ≤ a) (hm : m.wfFrom (a + 1) = true) :
    (Memory.entry a v ++ m).wfFrom lo = true := by
  unfold Memory.entry
  split
  · exact Memory.wfFrom_mono (by omega) hm
  · next hv => simp [Memory.wfFrom, ha, hv, hm]

/-- A byte write keeps the canonical form. -/
theorem Memory.wfFrom_write {a : Nat} {v : Byte} :
    ∀ {lo : Nat} {m : Memory}, lo ≤ a → m.wfFrom lo = true → (m.write a v).wfFrom lo = true
  | lo, [], ha, _ => by
    have h := Memory.wfFrom_entry (v := v) ha (m := []) rfl
    simpa [Memory.write] using h
  | lo, (b, w) :: rest, ha, hm => by
    simp only [Memory.wfFrom, Bool.and_eq_true, decide_eq_true_eq] at hm
    simp only [Memory.write]
    split
    · exact Memory.wfFrom_entry ha (by simp [Memory.wfFrom, hm.1.2, hm.2]; omega)
    · split
      · next hab => exact Memory.wfFrom_entry ha (by rw [hab]; exact hm.2)
      · simp only [Memory.wfFrom, Bool.and_eq_true, decide_eq_true_eq]
        exact ⟨hm.1, Memory.wfFrom_write (by omega) hm.2⟩

theorem Memory.wf_write {m : Memory} (a : Nat) (v : Byte) (hm : m.wf = true) : (m.write a v).wf = true :=
  Memory.wfFrom_write (Nat.zero_le a) hm

/-- A 16-bit write keeps the canonical form. -/
theorem Memory.wf_writeWord {m : Memory} (a : Nat) (v : Word) (hm : m.wf = true) : (m.writeWord a v).wf = true :=
  Memory.wf_write _ _ (Memory.wf_write _ _ hm)

theorem Memory.read_entry_append {a x : Nat} {v : Byte} {m : Memory} (hm : m.wfFrom (a + 1) = true) :
    (Memory.entry a v ++ m).read x = if a = x then v else m.read x := by
  unfold Memory.entry
  split
  · next hv =>
    split
    · next hax => subst hax; rw [hv]; exact Memory.read_below (Nat.lt_succ_self a) hm
    · rfl
  · rfl

theorem Memory.read_writeFrom {a x : Nat} {v : Byte} :
    ∀ {lo : Nat} {m : Memory}, m.wfFrom lo = true → (m.write a v).read x = if a = x then v else m.read x
  | lo, [], _ => by simpa [Memory.write] using Memory.read_entry_append (a := a) (x := x) (v := v) (m := []) rfl
  | lo, (b, w) :: rest, hm => by
    simp only [Memory.wfFrom, Bool.and_eq_true, decide_eq_true_eq] at hm
    simp only [Memory.write]
    split
    · rw [Memory.read_entry_append (by simp [Memory.wfFrom, hm.1.2, hm.2]; omega)]
    · split
      · next hab =>
        subst hab
        rw [Memory.read_entry_append hm.2]
        split
        · rfl
        · next hne => simp [Memory.read, hne]
      · next hab =>
        simp only [Memory.read]
        rw [Memory.read_writeFrom hm.2]
        split
        · next hbx => subst hbx; simp [hab]
        · rfl

/-- A read after a byte write: the byte written at its address, the old byte everywhere else. -/
theorem Memory.read_write {m : Memory} (hm : m.wf = true) (a x : Nat) (v : Byte) :
    (m.write a v).read x = if a = x then v else m.read x :=
  Memory.read_writeFrom hm

/-- A read after a 16-bit write: the high byte, the low byte, or the old byte. -/
theorem Memory.read_writeWord {m : Memory} (hm : m.wf = true) (a x : Nat) (v : Word) :
    (m.writeWord a v).read x =
      if a + 1 = x then v.extractLsb' 0 8 else if a = x then v.extractLsb' 8 8 else m.read x := by
  rw [Memory.writeWord, Memory.read_write (Memory.wf_write _ _ hm), Memory.read_write hm]

/-- A byte write lists no address but its own and those listed before. -/
theorem Memory.mem_write {m : Memory} {a : Nat} {v : Byte} {c : Host.Cell} (h : c ∈ m.write a v) : c.1 = a ∨ c ∈ m := by
  have hentry : ∀ {c : Host.Cell}, c ∈ Memory.entry a v → c.1 = a := by
    intro c hc
    unfold Memory.entry at hc
    split at hc
    · exact absurd hc List.not_mem_nil
    · rw [List.mem_singleton.mp hc]
  induction m with
  | nil => exact .inl (hentry h)
  | cons head rest ih =>
    obtain ⟨b, w⟩ := head
    simp only [Memory.write] at h
    split at h
    · rcases List.mem_append.mp h with h | h
      · exact .inl (hentry h)
      · exact .inr h
    · split at h
      · rcases List.mem_append.mp h with h | h
        · exact .inl (hentry h)
        · exact .inr (List.mem_cons_of_mem _ h)
      · rcases List.mem_cons.mp h with h | h
        · exact .inr (h ▸ List.mem_cons_self ..)
        · exact (ih h).imp_right (List.mem_cons_of_mem _)

theorem inBounds_iff (s : State) (ea : EffAddr) : inBounds s ea = true ↔ ea.toNat + 2 ≤ s.memSize := by
  simp [inBounds]

/-- All that `MemRead` can answer. -/
theorem memRead_cases (ea : EffAddr) (s : State) :
    (ea.toNat + 2 ≤ s.memSize ∧ memRead ea s = .ok (s.mem.readWord ea.toNat)) ∨
    (s.memSize < ea.toNat + 2 ∧ memRead ea s = .error (.outOfBoundsMemoryAccess ea)) := by
  rcases Nat.lt_or_ge s.memSize (ea.toNat + 2) with h | h
  · exact .inr ⟨h, by simp [memRead, inBounds, Nat.not_le.mpr h]⟩
  · exact .inl ⟨h, by simp [memRead, inBounds, h]⟩

/-- All that `MemWrite` can answer. -/
theorem memWrite_cases (ea : EffAddr) (v : Word) (s : State) :
    (ea.toNat + 2 ≤ s.memSize ∧ memWrite ea v s = .ok { s with mem := s.mem.writeWord ea.toNat v }) ∨
    (s.memSize < ea.toNat + 2 ∧ memWrite ea v s = .error (.outOfBoundsMemoryAccess ea)) := by
  rcases Nat.lt_or_ge s.memSize (ea.toNat + 2) with h | h
  · exact .inr ⟨h, by simp [memWrite, inBounds, Nat.not_le.mpr h]⟩
  · exact .inl ⟨h, by simp [memWrite, inBounds, h]⟩

/-- The value read is the two bytes, high byte first. -/
theorem Memory.readWord_toNat (m : Memory) (a : Nat) :
    (m.readWord a).toNat = (m.read a).toNat * 256 + (m.read (a + 1)).toNat := by
  have h := (m.read (a + 1)).isLt
  unfold Memory.readWord
  rw [BitVec.toNat_append, Nat.shiftLeft_eq, Nat.mul_comm, ← Nat.two_pow_add_eq_or_of_lt h, Nat.mul_comm]

end Sys2Proof.Machine
end

