-- ==== Sys2Proof/Laws/Exec.lean ====
section
/-! SUPPORT. One inversion per meaning: all the next states an instruction can answer, its faults among them; and all
that a step can do. -/

namespace Sys2Proof.Machine

/-- What a checked register operand leads to. -/
theorem withChecked_next {n : Nat} {s t : State} {k : Fin 16 → Result}
    (h : orRaise (checkReg n) s k = .next t) :
    (∃ i : Fin 16, n = i.val ∧ k i = .next t) ∨ (16 ≤ n ∧ t = raise (.invalidRegistry n) s) := by
  rcases checkReg_cases n with ⟨i, hn, hi⟩ | ⟨hn, he⟩
  · rw [hi] at h; exact .inl ⟨i, hn, h⟩
  · rw [he, orRaise_error, Host.Outcome.next.injEq] at h
    exact .inr ⟨hn, h.symm⟩

/-- What an arithmetic instruction answers on operands of the bank. -/
theorem arith_apply (alu : Word → Word → Word → Except FaultKind Word) (a b c : Fin 16) (imm : Word) (s : State) :
    arith alu a b c imm s =
      orRaise (alu (s.operand b 0) (s.operand c (drawsOf b)) imm) (afterRead c (afterRead b s)) fun v =>
        .next (advance (writeReg a v (afterRead c (afterRead b s)))) := by
  simp [arith, operand_afterRead]

/-- All that an arithmetic instruction can do: write its result and advance, take the fault of the arithmetic unit, or take
InvalidRegistry. -/
theorem arith_next {alu : Word → Word → Word → Except FaultKind Word} {a b c : Nat} {imm : Word} {s t : State}
    (h : arith alu a b c imm s = .next t) :
    (∃ (i j k : Fin 16) (v : Word), a = i.val ∧ b = j.val ∧ c = k.val ∧
      alu (s.operand j 0) (s.operand k (drawsOf j)) imm = .ok v ∧
      t = advance (writeReg i v (afterRead k (afterRead j s)))) ∨
    (∃ (i j k : Fin 16) (f : FaultKind), a = i.val ∧ b = j.val ∧ c = k.val ∧
      alu (s.operand j 0) (s.operand k (drawsOf j)) imm = .error f ∧
      t = raise f (afterRead k (afterRead j s))) ∨
    (∃ n, 16 ≤ n ∧ (n = a ∨ n = b ∨ n = c) ∧ t = raise (.invalidRegistry n) s) := by
  unfold arith at h
  rcases withChecked_next h with ⟨i, rfl, hi⟩ | ⟨ha, rfl⟩
  · rcases withChecked_next hi with ⟨j, rfl, hj⟩ | ⟨hb, rfl⟩
    · rcases withChecked_next hj with ⟨k, rfl, hk⟩ | ⟨hc, rfl⟩
      · simp only [withRead_apply, operand_afterRead, Nat.add_zero] at hk
        rcases orRaise_next hk with ⟨v, hv, hr⟩ | ⟨f, hf, rfl⟩
        · rw [Host.Outcome.next.injEq] at hr
          exact .inl ⟨i, j, k, v, rfl, rfl, rfl, hv, hr.symm⟩
        · exact .inr (.inl ⟨i, j, k, f, rfl, rfl, rfl, hf, rfl⟩)
      · exact .inr (.inr ⟨c, hc, .inr (.inr rfl), rfl⟩)
    · exact .inr (.inr ⟨b, hb, .inr (.inl rfl), rfl⟩)
  · exact .inr (.inr ⟨a, ha, .inl rfl, rfl⟩)

/-- All that LOAD can do. -/
theorem execLoad_next {a b : Nat} {off : Word} {s t : State} (h : execLoad a b off s = .next t) :
    (∃ i j : Fin 16, a = i.val ∧ b = j.val ∧
      (basePlusOffset (s.operand j 0) off).toNat + 2 ≤ s.memSize ∧
      t = advance (writeReg i (s.mem.readWord (basePlusOffset (s.operand j 0) off).toNat) (afterRead j s))) ∨
    (∃ i j : Fin 16, a = i.val ∧ b = j.val ∧
      s.memSize < (basePlusOffset (s.operand j 0) off).toNat + 2 ∧
      t = raise (.outOfBoundsMemoryAccess (basePlusOffset (s.operand j 0) off)) (afterRead j s)) ∨
    (∃ n, 16 ≤ n ∧ (n = a ∨ n = b) ∧ t = raise (.invalidRegistry n) s) := by
  unfold execLoad at h
  rcases withChecked_next h with ⟨i, rfl, hi⟩ | ⟨ha, rfl⟩
  · rcases withChecked_next hi with ⟨j, rfl, hj⟩ | ⟨hb, rfl⟩
    · simp only [withRead_apply] at hj
      rcases memRead_cases (basePlusOffset (s.operand j 0) off) (afterRead j s) with ⟨hin, hr⟩ | ⟨hout, hr⟩
      · rw [hr, orRaise_ok, Host.Outcome.next.injEq] at hj
        exact .inl ⟨i, j, rfl, rfl, by simpa using hin, by simpa using hj.symm⟩
      · rw [hr, orRaise_error, Host.Outcome.next.injEq] at hj
        exact .inr (.inl ⟨i, j, rfl, rfl, by simpa using hout, hj.symm⟩)
    · exact .inr (.inr ⟨b, hb, .inr rfl, rfl⟩)
  · exact .inr (.inr ⟨a, ha, .inl rfl, rfl⟩)

/-- All that POOL can do. -/
theorem execPool_next {a b : Nat} {off : Word} {s t : State} (h : execPool a b off s = .next t) :
    (∃ i j : Fin 16, a = i.val ∧ b = j.val ∧
      (basePlusOffset (s.operand j (drawsOf i)) off).toNat + 2 ≤ s.memSize ∧
      t = advance { afterRead j (afterRead i s) with
        mem := s.mem.writeWord (basePlusOffset (s.operand j (drawsOf i)) off).toNat (s.operand i 0) }) ∨
    (∃ i j : Fin 16, a = i.val ∧ b = j.val ∧
      s.memSize < (basePlusOffset (s.operand j (drawsOf i)) off).toNat + 2 ∧
      t = raise (.outOfBoundsMemoryAccess (basePlusOffset (s.operand j (drawsOf i)) off))
        (afterRead j (afterRead i s))) ∨
    (∃ n, 16 ≤ n ∧ (n = a ∨ n = b) ∧ t = raise (.invalidRegistry n) s) := by
  unfold execPool at h
  rcases withChecked_next h with ⟨i, rfl, hi⟩ | ⟨ha, rfl⟩
  · rcases withChecked_next hi with ⟨j, rfl, hj⟩ | ⟨hb, rfl⟩
    · simp only [withRead_apply, operand_afterRead, Nat.add_zero] at hj
      rcases memWrite_cases (basePlusOffset (s.operand j (drawsOf i)) off) (s.operand i 0)
        (afterRead j (afterRead i s)) with ⟨hin, hr⟩ | ⟨hout, hr⟩
      · rw [hr, orRaise_ok, Host.Outcome.next.injEq] at hj
        exact .inl ⟨i, j, rfl, rfl, by simpa using hin, by simpa using hj.symm⟩
      · rw [hr, orRaise_error, Host.Outcome.next.injEq] at hj
        exact .inr (.inl ⟨i, j, rfl, rfl, by simpa using hout, hj.symm⟩)
    · exact .inr (.inr ⟨b, hb, .inr rfl, rfl⟩)
  · exact .inr (.inr ⟨a, ha, .inl rfl, rfl⟩)

/-- All that COUT can do. -/
theorem execCout_next {a : Nat} {s t : State} (h : execCout a s = .next t) :
    (∃ i : Fin 16, a = i.val ∧ t = advance (emit [(s.operand i 0).extractLsb' 0 8] (afterRead i s))) ∨
    (16 ≤ a ∧ t = raise (.invalidRegistry a) s) := by
  unfold execCout at h
  rcases withChecked_next h with ⟨i, rfl, hi⟩ | h
  · simp only [withRead_apply, Host.Outcome.next.injEq] at hi
    exact .inl ⟨i, rfl, hi.symm⟩
  · exact .inr h

/-- All that IOUT can do. -/
theorem execIout_next {a : Nat} {s t : State} (h : execIout a s = .next t) :
    (∃ i : Fin 16, a = i.val ∧ t = advance (emit (dec (sval (s.operand i 0)) ++ [lineFeed]) (afterRead i s))) ∨
    (16 ≤ a ∧ t = raise (.invalidRegistry a) s) := by
  unfold execIout at h
  rcases withChecked_next h with ⟨i, rfl, hi⟩ | h
  · simp only [withRead_apply, Host.Outcome.next.injEq] at hi
    exact .inl ⟨i, rfl, hi.symm⟩
  · exact .inr h

/-- All that JUMP can do. -/
theorem execJump_next {a : Nat} {off : Word} {s t : State} (h : execJump a off s = .next t) :
    (∃ i : Fin 16, a = i.val ∧ t = jumpTo (basePlusOffset (s.operand i 0) off) (afterRead i s)) ∨
    (16 ≤ a ∧ t = raise (.invalidRegistry a) s) := by
  unfold execJump at h
  rcases withChecked_next h with ⟨i, rfl, hi⟩ | h
  · simp only [withRead_apply, Host.Outcome.next.injEq] at hi
    exact .inl ⟨i, rfl, hi.symm⟩
  · exact .inr h

/-- All that FORK can do. -/
theorem execFork_next {a b c : Nat} {off : Word} {s t : State} (h : execFork a b c off s = .next t) :
    (∃ i j k : Fin 16, a = i.val ∧ b = j.val ∧ c = k.val ∧ s.operand j 0 = s.operand k (drawsOf j) ∧
      t = jumpTo (basePlusOffset (s.operand i (drawsOf j + drawsOf k)) off) (afterRead i (afterRead k (afterRead j s)))) ∨
    (∃ i j k : Fin 16, a = i.val ∧ b = j.val ∧ c = k.val ∧ s.operand j 0 ≠ s.operand k (drawsOf j) ∧
      t = advance (afterRead k (afterRead j s))) ∨
    (∃ n, 16 ≤ n ∧ (n = a ∨ n = b ∨ n = c) ∧ t = raise (.invalidRegistry n) s) := by
  unfold execFork at h
  rcases withChecked_next h with ⟨i, rfl, hi⟩ | ⟨ha, rfl⟩
  · rcases withChecked_next hi with ⟨j, rfl, hj⟩ | ⟨hb, rfl⟩
    · rcases withChecked_next hj with ⟨k, rfl, hk⟩ | ⟨hc, rfl⟩
      · simp only [withRead_apply, operand_afterRead, Nat.add_zero] at hk
        split at hk
        · next he =>
          rw [Host.Outcome.next.injEq] at hk
          exact .inl ⟨i, j, k, rfl, rfl, rfl, he, hk.symm⟩
        · next hne =>
          rw [Host.Outcome.next.injEq] at hk
          exact .inr (.inl ⟨i, j, k, rfl, rfl, rfl, hne, hk.symm⟩)
      · exact .inr (.inr ⟨c, hc, .inr (.inr rfl), rfl⟩)
    · exact .inr (.inr ⟨b, hb, .inr (.inl rfl), rfl⟩)
  · exact .inr (.inr ⟨a, ha, .inl rfl, rfl⟩)

/-- All that a step can do. -/
theorem step_next {s t : State} (h : step s = .next t) :
    s.status = .running ∧
    ((ifetch s = .err ∧ t = raise .backingStoreError (afterFetch s)) ∨
     (ifetch s = .endOfStore ∧ t = raise .unexpectedEndOfFile (afterFetch s)) ∨
     (∃ w, ifetch s = .word w ∧ exec (decode w) (afterFetch s) = .next t)) := by
  unfold step at h
  split at h
  · exact absurd h (by simp)
  · exact absurd h (by simp)
  · next hs =>
    refine ⟨hs, ?_⟩
    split at h
    · next hf => rw [Host.Outcome.next.injEq] at h; exact .inl ⟨hf, h.symm⟩
    · next hf => rw [Host.Outcome.next.injEq] at h; exact .inr (.inl ⟨hf, h.symm⟩)
    · next w hf => exact .inr (.inr ⟨w, hf, h⟩)

/-- The word at an index, from the bytes there. -/
theorem wordAt_of_drop {prog rest : List Byte} {p : Nat} {b0 b1 b2 b3 : Byte}
    (h : prog.drop (4 * p) = b0 :: b1 :: b2 :: b3 :: rest) : wordAt prog p = some (b0 ++ b1 ++ b2 ++ b3) := by
  simp [wordAt, h, takeWord]

/-- Fewer than four bytes are no word, four or more are one. -/
theorem takeWord_isSome (bs : List Byte) : (takeWord bs).isSome = decide (4 ≤ bs.length) := by
  match bs with
  | [] | [_] | [_, _] | [_, _, _] => rfl
  | _ :: _ :: _ :: _ :: _ => simp [takeWord]

/-- A store holds a word at exactly the indices below its length in words. -/
theorem wordAt_isSome (prog : List Byte) (p : Nat) : (wordAt prog p).isSome = decide (p < prog.length / 4) := by
  rw [wordAt, Option.isSome_map, takeWord_isSome, List.length_drop]
  congr 1
  exact propext ⟨fun h => by omega, fun h => by omega⟩

end Sys2Proof.Machine
end

