-- ==== Sys2Proof/Laws/PerInstr.lean ====
section
/-! SUPPORT. The family `EncodedOpcode`: the four top bits of every instruction's encoding are its opcode
(spec/30_encoding.md R64), whatever its operands. -/

namespace Sys2Proof.Laws.EncodedOpcode

open Sys2Proof

/-- The opcode of R64. -/
def opcode : Instr → Nat
  | .noop => 0
  | .halt => 1
  | .cout _ => 2
  | .iout _ => 3
  | .jump _ _ => 4
  | .fork _ _ _ _ => 5
  | .load _ _ _ => 6
  | .pool _ _ _ => 7
  | .iadd _ _ _ _ => 8
  | .isub _ _ _ _ => 9
  | .imul _ _ _ _ => 10
  | .idiv _ _ _ _ => 11
  | .errorC => 12
  | .errorD => 13
  | .errorE => 14
  | .errorF => 15

/-- The statement of the family. -/
def Statement (i : Instr) : Prop := opField (encode i) = opcode i

/-- The opcode field of a packed word. -/
theorem opField_packWord (op a b c : Nat) (i : Word) (h : op < 16) : opField (packWord op a b c i) = op := by
  unfold opField packWord
  have e : ∀ (x y z u : BitVec 4) (v : BitVec 16), (x ++ y ++ z ++ u ++ v).extractLsb' 28 4 = x := by
    intro x y z u v
    apply BitVec.eq_of_toNat_eq
    have := x.isLt; have := y.isLt; have := z.isLt; have := u.isLt; have := v.isLt
    simp only [BitVec.extractLsb'_toNat, BitVec.toNat_append, Nat.shiftLeft_eq, Nat.shiftRight_eq_div_pow, Nat.mul_comm _ (2 ^ 4), Nat.mul_comm _ (2 ^ 16)]
    rw [← Nat.two_pow_add_eq_or_of_lt y.isLt, ← Nat.two_pow_add_eq_or_of_lt z.isLt, ← Nat.two_pow_add_eq_or_of_lt u.isLt,
      ← Nat.two_pow_add_eq_or_of_lt v.isLt]
    omega
  rw [e, BitVec.toNat_ofNat]
  omega

theorem noop : Statement .noop := opField_packWord _ _ _ _ _ (by decide)
theorem halt : Statement .halt := opField_packWord _ _ _ _ _ (by decide)
theorem cout (a : Nat) : Statement (.cout a) := opField_packWord _ _ _ _ _ (by decide)
theorem iout (a : Nat) : Statement (.iout a) := opField_packWord _ _ _ _ _ (by decide)
theorem jump (a : Nat) (off : Word) : Statement (.jump a off) := opField_packWord _ _ _ _ _ (by decide)
theorem fork (a b c : Nat) (off : Word) : Statement (.fork a b c off) := opField_packWord _ _ _ _ _ (by decide)
theorem load (a b : Nat) (off : Word) : Statement (.load a b off) := opField_packWord _ _ _ _ _ (by decide)
theorem pool (a b : Nat) (off : Word) : Statement (.pool a b off) := opField_packWord _ _ _ _ _ (by decide)
theorem iadd (a b c : Nat) (imm : Word) : Statement (.iadd a b c imm) := opField_packWord _ _ _ _ _ (by decide)
theorem isub (a b c : Nat) (imm : Word) : Statement (.isub a b c imm) := opField_packWord _ _ _ _ _ (by decide)
theorem imul (a b c : Nat) (imm : Word) : Statement (.imul a b c imm) := opField_packWord _ _ _ _ _ (by decide)
theorem idiv (a b c : Nat) (imm : Word) : Statement (.idiv a b c imm) := opField_packWord _ _ _ _ _ (by decide)
theorem errorC : Statement .errorC := opField_packWord _ _ _ _ _ (by decide)
theorem errorD : Statement .errorD := opField_packWord _ _ _ _ _ (by decide)
theorem errorE : Statement .errorE := opField_packWord _ _ _ _ _ (by decide)
theorem errorF : Statement .errorF := opField_packWord _ _ _ _ _ (by decide)

end Sys2Proof.Laws.EncodedOpcode
end

