-- ==== Sys2Proof/Tests/Slice0.lean ====
section
/-! SUPPORT. The model's own tests. Expected values come from spec/95_test_vectors.md (vector ids in the comments) or are
worked from the rules by hand; then, for every statement with hypotheses, a state and operands that meet them. -/

namespace Sys2Proof.Tests

open Sys2Proof Sys2Proof.Machine

/-! ### Decoding and encoding: one word per constructor, written from the layout of R61 -/

theorem test_decode_noop : decode 0x0FFFFFFF = .noop := by decide -- V-DEC2
theorem test_decode_halt : decode 0x1ABCDEF0 = .halt := by decide -- V-DEC3
theorem test_decode_cout : decode 0x24FFFFFF = .cout 4 := by decide -- V-DEC4
theorem test_decode_iout : decode 0x3A5C0FFE = .iout 10 := by decide -- V-DEC5
theorem test_decode_jump : decode 0x4A5C0FFE = .jump 10 0x0FFE := by decide -- V-DEC6
theorem test_decode_fork : decode 0x5FEDFFFF = .fork 15 14 13 0xFFFF := by decide -- V-ENC2
theorem test_decode_load : decode 0x6712FFFF = .load 7 1 0xFFFF := by decide -- V-DEC9
theorem test_decode_pool : decode 0x79A00102 = .pool 9 10 0x0102 := by decide -- V-ENC3
theorem test_decode_iadd : decode 0x84561234 = .iadd 4 5 6 0x1234 := by decide
theorem test_decode_isub : decode 0x94400001 = .isub 4 4 0 1 := by decide -- P3, index 3
theorem test_decode_imul : decode 0xA5410007 = .imul 5 4 1 7 := by decide -- P6, index 1
theorem test_decode_idiv : decode 0xB7620002 = .idiv 7 6 2 2 := by decide -- P6, index 3
theorem test_decode_errorC : decode 0xC0000000 = .errorC := by decide -- V-DEC12
theorem test_decode_errorD : decode 0xD1234567 = .errorD := by decide -- V-DEC12
theorem test_decode_errorE : decode 0xE0000000 = .errorE := by decide -- V-DEC12
theorem test_decode_errorF : decode 0xFFFFFFFF = .errorF := by decide -- V-DEC12
theorem test_decode_bits :
    decode 0b1001_0111_0001_1100_0000000000000101#32 = .isub 7 1 12 5 := by decide
theorem test_encode_iadd : encode (.iadd 4 0 0 0xFFFF) = 0x8400FFFF := by decide -- V-ENC1
theorem test_encode_load : encode (.load 7 1 0x0011) = 0x67100011 := by decide -- V-DEC8
theorem test_decodeBytes : -- V-IF4
    decodeBytes [0x84, 0x00, 0x12, 0x34, 0x10] = .ok (.iadd 4 0 0 0x1234, [0x10]) := by decide
theorem test_decodeBytes_fragment : decodeBytes [0x10, 0x00] = .error .fragment := by decide -- V-IF2
theorem test_decodeTableWord : decodeTableWord 32 0xB4560000 = some (.idiv 4 5 6 0) := by decide -- V-DEC11

/-! ### Well-formedness: an ill-formed term for each operand place -/

theorem test_wellFormed : (Instr.iadd 15 15 15 0xFFFF).wellFormed = true := by decide
theorem test_illFormed_a : (Instr.cout 16).wellFormed = false := by decide
theorem test_illFormed_b : (Instr.pool 0 16 0).wellFormed = false := by decide
theorem test_illFormed_c : (Instr.fork 0 1 99 0).wellFormed = false := by decide

/-! ### One step each. `at32` is the start state of the vectors: the standard image, 32 bytes of memory. -/

def at32 : State := State.resetWith Config.standardImage 32 [] [] 0

def State.reg (s : State) (i : Fin 16) (v : Word) : State := { s with regs := s.regs.set i v }

/-- The outcome is a next state with this property. -/
def nextHas (o : Result) (p : State → Bool) : Bool :=
  match o with
  | .next t => p t
  | .fault _ => false
  | .refused _ => false

/-- `OP r4,r5,r6,#imm` with these source values (V-ADD to V-DIV). -/
def alu456 (f : Nat → Nat → Nat → Word → Instr) (x y imm : Word) (p : State → Bool) : Bool :=
  nextHas (exec (f 4 5 6 imm) (State.reg (State.reg at32 5 x) 6 y)) p

theorem test_noop : nextHas (step (State.reset.withFetchWord 32 0)) (fun t => t.pc == 1 && t.status == .running) := by
  decide -- V-NOOP1
theorem test_halt : -- V-HALT3
    nextHas (step (State.reset.withFetchWord 32 0x1FFFFFFF)) (fun t => t.pc == 0 && t.status.word == 0x01) := by decide
theorem test_errorF : -- V-ERR2
    nextHas (step (State.reset.withFetchWord 32 0xFFFFFFFF)) (fun t => t.pc == 0 && t.status.word == 0x1E6) := by decide
theorem test_errorD : nextHas (exec .errorD at32) (fun t => t.status.word == 0x1A6) := by decide -- V-ERR3
theorem test_emptyStore : -- V-IF1
    nextHas (step State.reset) (fun t => t.pc == 0 && t.status.word == 0x0E) := by decide
theorem test_fragment : -- V-IF2
    nextHas (step { at32 with prog := [0, 0, 0, 0, 0x10, 0], pc := 1 }) (fun t => t.status == .faulted .unexpectedEndOfFile) := by
  decide
theorem test_storeFails : -- V-IF3
    nextHas (step { at32 with prog := [0, 0, 0, 0], storeEvents := [true] }) (fun t => t.pc == 0 && t.status.word == 0x16) := by
  decide
theorem test_cout : nextHas (exec (.cout 4) (State.reg at32 4 0x014F)) (fun t => t.out == [0x4F] && t.pc == 1) := by
  decide -- V-COUT2
theorem test_iout_min : -- V-IOUT4
    nextHas (exec (.iout 4) (State.reg at32 4 0x8000)) (fun t => t.out == [0x2D, 0x33, 0x32, 0x37, 0x36, 0x38, 0x0A]) := by
  decide
theorem test_iout_ten : nextHas (exec (.iout 4) (State.reg at32 4 10)) (fun t => t.out == [0x31, 0x30, 0x0A]) := by
  decide -- V-IOUT6
theorem test_jump_unsigned : nextHas (exec (.jump 2 1) at32) (fun t => t.pc == 65536) := by decide -- V-JUMP4
theorem test_jump_offset : nextHas (exec (.jump 4 0xFFFF) (State.reg at32 4 10)) (fun t => t.pc == 65545) := by
  decide -- V-JUMP6
theorem test_fork_taken : nextHas (exec (.fork 6 0 0 2) (State.reg at32 6 0x10)) (fun t => t.pc == 18) := by
  decide -- V-FORK5
theorem test_fork_not_taken : nextHas (exec (.fork 0 1 2 9) at32) (fun t => t.pc == 1) := by decide -- V-FORK3
theorem test_load_aliased : -- V-LOAD8
    nextHas (exec (.load 4 4 0) { State.reg at32 4 0x10 with mem := [(16, 0xAB), (17, 0xCD)] })
      (fun t => t.regs[4] == 0xABCD && t.pc == 1) := by decide
theorem test_load_last : -- V-LOAD5
    nextHas (exec (.load 4 0 31) (State.reg at32 4 0x5555))
      (fun t => t.regs[4] == 0x5555 && t.pc == 0 && t.status.word == 0x3FA) := by decide
theorem test_pool : -- V-POOL2
    nextHas (exec (.pool 4 5 4) (State.reg (State.reg at32 4 0xBEEF) 5 3)) (fun t => t.mem == [(7, 0xBE), (8, 0xEF)]) := by
  decide
theorem test_pool_edge : -- V-POOL4
    nextHas (exec (.pool 1 0 31) at32) (fun t => t.mem == [] && t.status == .faulted (.outOfBoundsMemoryAccess 31)) := by
  decide
theorem test_mem_overlap : -- V-MEM1
    ((Memory.writeWord [] 16 0x1234).writeWord 17 0xFFFE) = [(16, 0x12), (17, 0xFF), (18, 0xFE)] := by decide
theorem test_mem_zero_removes : Memory.write [(3, 1), (5, 2)] 3 0 = [(5, 2)] := by decide
theorem test_iadd_wraps : alu456 .iadd 0x7FFF 1 0 (fun t => t.regs[4] == 0x8000 && t.pc == 1) := by decide -- V-ADD1
theorem test_iadd_three : alu456 .iadd 5 0xFFF9 0xFFF6 (fun t => t.regs[4] == 0xFFF4) := by decide -- V-ADD6
theorem test_isub : alu456 .isub 10 3 2 (fun t => t.regs[4] == 5) := by decide -- V-SUB1
theorem test_isub_negative : alu456 .isub 5 5 0xFFFF (fun t => t.regs[4] == 1) := by decide -- V-SUB5
theorem test_imul_wraps : alu456 .imul 300 300 1 (fun t => t.regs[4] == 0x5F90) := by decide -- V-MUL2
theorem test_imul_signed : alu456 .imul 7 6 0xFFFF (fun t => t.regs[4] == 0xFFD6) := by decide -- V-MUL7
theorem test_idiv_truncates : alu456 .idiv 100 7 0xFFFD (fun t => t.regs[4] == 0xFFFC) := by decide -- V-DIV6
theorem test_idiv_overflow : alu456 .idiv 0x8000 0xFFFF 2 (fun t => t.regs[4] == 0xC000) := by decide -- V-DIV10
theorem test_idiv_zero : -- V-DIV14
    alu456 .idiv 5 0 1 (fun t => t.regs[4] == 0 && t.pc == 0 && t.status.word == 0x12) := by decide
theorem test_two_draws : -- V-RF5: two reads of r3 are two draws, whatever its cell holds
    readReg 3 (State.reg at32 3 7) = Config.rand16 0 ∧
    readReg 3 (afterRead 3 (State.reg at32 3 7)) = Config.rand16 1 := ⟨rfl, rfl⟩
theorem test_reserved_not_protected : -- V-RF3
    nextHas (exec (.iadd 0 0 0 5) at32) (fun t => t.regs[0] == 5 && t.status == .running) := by decide
theorem test_invalidRegistry : -- V-RF6
    nextHas (exec (.idiv 4 16 17 0) at32) (fun t => t.status == .faulted (.invalidRegistry 16)) := by decide
theorem test_halted_has_no_step : step { at32 with status := .halted } = .fault .noStepAfterHalt := rfl
theorem test_reset_memory_wf : State.reset.mem.wf = true := by decide

/-! ### Witnesses: the hypotheses of each statement are met together -/

/-- Running, a two-word program, memory with two listed bytes. -/
def busy : State :=
  { State.resetWith Config.standardImage 32 (wordBytes 0x31000000 ++ wordBytes 0x10000000) [] 0 with
    mem := [(6, 0x12), (7, 0x34)] }

theorem busy_inv : busy.Inv := ⟨by decide, by decide, by decide, by decide, trivial⟩

/-- DecodeOfEncodeIsIdentity. -/
theorem witness_wellFormed : (Instr.fork 0 15 3 0xFFFF).wellFormed = true := by decide
/-- WordsDecodeAlikeExactlyOnUsedBits: two different words on either side of the equivalence. -/
theorem witness_usedBits :
    (0x1ABCDEF0 : InstrWord) &&& usedBits (opField 0x1ABCDEF0) = 0x10000000 &&& usedBits (opField 0x1ABCDEF0) := by decide
/-- InstructionBytesAreBigEndian. -/
theorem witness_bytes : busy.prog.drop (4 * 1) = 0x10 :: 0 :: 0 :: 0 :: [] := by decide
/-- ProgramStoreHoldsWordsInOrder, at the longest fragment. -/
theorem witness_fragment : ([1, 2, 3] : List Byte).length < 4 := by decide
/-- StepRunsDecodedInstruction; the third clause of FetchFaultsOrRuns. -/
theorem witness_fetch : busy.status = .running ∧ busy.storeEvents.head? ≠ some true ∧
    decodeBytes (busy.prog.drop (4 * busy.pc.toNat)) = .ok (.iout 1, wordBytes 0x10000000) ∧
    busy.pc.toNat < busy.progWords := by decide
/-- The second clause of FetchFaultsOrRuns, at its boundary: the pc equal to the program's length. -/
theorem witness_fetch_end : ({ busy with pc := 2 } : State).status = .running ∧ busy.storeEvents.head? ≠ some true ∧
    ({ busy with pc := 2 } : State).progWords = ({ busy with pc := 2 } : State).pc.toNat := by decide
/-- The first clause of FetchFaultsOrRuns. -/
theorem witness_fetch_fails : ({ busy with storeEvents := [true, false] } : State).status = .running ∧
    ({ busy with storeEvents := [true, false] } : State).storeEvents.head? = some true := by decide
/-- Both clauses of TerminalStatesHaveNoStep. -/
theorem witness_terminal : ({ busy with status := .halted } : State).status = .halted ∧
    ({ busy with status := .faulted .divisionByZero } : State).status = .faulted .divisionByZero := by decide
/-- PlacedWordRunsNext, at the largest word. -/
theorem witness_placed : 0xFFFFFFFF < 2 ^ 32 := by decide
/-- The decoding clauses of NoopAdvances, HaltEndsRun, CoutEmitsLowByte, IaddWritesSum, IsubWritesDifference,
ImulWritesProduct. -/
theorem witness_opcodes : opField 0x0FFFFFFF = 0 ∧ opField 0x1FFFFFFF = 1 ∧ opField 0x2FFFFFFF = 2 ∧
    opField 0x8FFFFFFF = 8 ∧ opField 0x9FFFFFFF = 9 ∧ opField 0xAFFFFFFF = 10 := by decide
/-- Both clauses of ForkBranchesOnEquality; the second of SequentialInstructionsAdvance. -/
theorem witness_fork : busy.operand 0 0 = busy.operand 5 (drawsOf 0) ∧ busy.operand 1 0 ≠ busy.operand 2 (drawsOf 1) := by
  decide
theorem witness_fork_runs : ∃ t, exec (.fork 0 1 2 9) busy = .next t ∧ t.pc = 1 := ⟨_, rfl, rfl⟩
/-- The first clause of SequentialInstructionsAdvance. -/
theorem witness_sequential : ∃ t, isTransfer .noop = false ∧ exec .noop busy = .next t ∧ t.status = .running :=
  ⟨_, rfl, rfl, rfl⟩
/-- A one-word program over `busy`, for the step clauses of PcNeverWraps. -/
def busyWith (i : Instr) : State := { busy with prog := wordBytes (encode i) }
theorem busyWith_inv (i : Instr) : (busyWith i).Inv :=
  ⟨busy_inv.mem_wf, busy_inv.mem_inside, by simp [State.progWords, busyWith, wordBytes], Nat.zero_le _, trivial⟩
/-- PcNeverWraps, a step that ends the run. -/
theorem witness_pc_end : ∃ t, (busyWith .halt).Inv ∧ step (busyWith .halt) = .next t ∧ t.status ≠ .running :=
  ⟨_, busyWith_inv _, rfl, by decide⟩
/-- PcNeverWraps, no transfer. -/
theorem witness_pc_advance : ∃ t, (busyWith (.cout 1)).Inv ∧ step (busyWith (.cout 1)) = .next t ∧
    t.status = .running ∧ t.pc.toNat = 1 := ⟨_, busyWith_inv _, rfl, rfl, rfl⟩
/-- PcNeverWraps, a FORK whose compare fails, at the largest offset. -/
theorem witness_pc_fork : ∃ t, step (busyWith (.fork 2 0 1 0xFFFF)) = .next t ∧ t.status = .running ∧
    busy.operand 0 0 ≠ busy.operand 1 (drawsOf 0) ∧ t.pc.toNat = 1 := ⟨_, rfl, rfl, by decide, rfl⟩
/-- PcNeverWraps, a JUMP to the largest target (spec/42_control_transfer.md R101). -/
theorem witness_pc_jump : ∃ t, step (busyWith (.jump 2 0xFFFF)) = .next t ∧ t.status = .running ∧
    t.pc.toNat = 131070 := ⟨_, rfl, rfl, by decide⟩
/-- EveryStepKeepsInvariant, OutputIsAppendOnly, ProgramAndMemorySizeAreFixed, HiddenCellIsUnobservable,
InvalidRegistryNeverRaisedByWords. -/
theorem witness_step : busy.Inv ∧ ∃ t, step busy = .next t ∧ t.out = [0x31, 0x0A] := ⟨busy_inv, _, rfl, by decide⟩
/-- LoadReadsTwoBytes and PoolWritesTwoBytes, at the last address inside the segment. -/
theorem witness_inside : busy.mem.wf = true ∧ 30 = (busy.operand 0 (drawsOf 4)).toNat + (30 : Word).toNat ∧
    30 + 2 ≤ busy.memSize := by decide
/-- LoadOutsideSegmentFaults and PoolOutsideSegmentFaults, at the first address whose second byte lies outside. -/
theorem witness_outside : (31 : EffAddr).toNat = (busy.operand 0 (drawsOf 4)).toNat + (31 : Word).toNat ∧
    busy.memSize < (31 : EffAddr).toNat + 2 := by decide
/-- StoresOverlapByteByByte, CanonicalMemoryIsUnique. -/
theorem witness_memory : busy.mem.wf = true ∧ busy.mem ≠ [] := by decide
/-- SizesBeyondReachAreAlike, at the least size. -/
theorem witness_size : ∃ t, 131072 ≤ ({ busy with memSize := 131072 } : State).memSize ∧ 131072 ≤ 131073 ∧
    step { busy with memSize := 131072 } = .next t := ⟨_, Nat.le_refl _, by decide, rfl⟩
/-- IdivWritesChainedQuotient, and both disjuncts of IdivByZeroFaults. -/
theorem witness_idiv : busy.operand 2 (drawsOf 1) ≠ 0 ∧ (2 : Word) ≠ 0 ∧ busy.operand 0 (drawsOf 1) = 0 ∧
    (0 : Word) = 0 := by decide
theorem witness_idiv_faults : ∃ t, busy.status = .running ∧ exec (.idiv 4 1 0 1) busy = .next t ∧
    t.status = .faulted .divisionByZero := ⟨_, rfl, rfl, by decide⟩
/-- DivisionRoundsTowardZero: a divisor of -1 with the dividend next to the one that overflows. -/
theorem witness_division : (0xFFFF : Word) ≠ 0 ∧ ¬((0x8001 : Word) = 0x8000 ∧ (0xFFFF : Word) = 0xFFFF) := by decide
/-- RegisterBankReadsAndWrites. -/
theorem witness_registers : (2 : Fin 16) ≠ 3 ∧ (2 : Fin 16) ≠ 15 := by decide
/-- InvalidRegistryOperandFaults, at the least bad index. -/
theorem witness_badRegistry : (Instr.load 15 16 0).badRegistry = some 16 := by decide
/-- NoDrawWithoutRegisterThree. -/
theorem witness_no_draw : ∃ t, 3 ∉ sources (.iadd 3 0 1 0) ∧ exec (.iadd 3 0 1 0) busy = .next t :=
  ⟨_, by decide, rfl⟩
/-- RegisterWritersFrame. -/
theorem witness_writer : ∃ t, destination (.load 4 0 6) = some 4 ∧ exec (.load 4 0 6) busy = .next t ∧
    t.regs[4] = 0x1234 := ⟨_, rfl, rfl, by decide⟩
/-- PoolFrame. -/
theorem witness_pool : ∃ t, busy.mem.wf = true ∧ exec (.pool 2 0 8) busy = .next t ∧ t.byteAt 9 = 0xFF :=
  ⟨_, by decide, rfl, by decide⟩
/-- NonWritersFrame: an output instruction and one that is not. -/
theorem witness_nonwriter : (∃ t, destination (.cout 1) = none ∧ isStore (.cout 1) = false ∧ isOutput (.cout 1) = true ∧
    (Instr.cout 1).wellFormed = true ∧ exec (.cout 1) busy = .next t) ∧
    ∃ t, destination .halt = none ∧ isStore .halt = false ∧ isOutput .halt = false ∧ exec .halt busy = .next t :=
  ⟨⟨_, rfl, rfl, rfl, by decide, rfl⟩, ⟨_, rfl, rfl, rfl, rfl⟩⟩
/-- FaultsArePrecise: the step at the end of the program faults. -/
theorem witness_fault : ∃ t, step { busy with pc := 2 } = .next t ∧ t.status = .faulted .unexpectedEndOfFile :=
  ⟨_, rfl, rfl⟩
/-- FaultsMatchInstruction. -/
theorem witness_instruction_fault : ∃ t, Instr.errorE.wellFormed = true ∧ busy.status = .running ∧
    exec .errorE busy = .next t ∧ t.status = .faulted (.invalidInstruction 0x0E) := ⟨_, by decide, rfl, rfl, rfl⟩
/-- HaltedOnlyByHalt. -/
theorem witness_halted : ∃ t, step { busy with pc := 1 } = .next t ∧ t.status = .halted := ⟨_, rfl, rfl⟩
/-- StatusWordValues, at the largest index its field holds. -/
theorem witness_status_index : 2 ^ 17 - 1 < 2 ^ 17 := by decide
/-- StatusWordDeterminesStatus. -/
theorem witness_status : (Status.faulted (.outOfBoundsMemoryAccess 31)).legal 32 ∧ Status.halted.legal 32 :=
  ⟨⟨by decide, by decide⟩, trivial⟩
/-- ResetMeetsInvariant. -/
theorem witness_program : busy.prog.length / 4 ≤ 2 ^ 32 - 1 := by decide

end Sys2Proof.Tests
end

/-! ### The shape of a step: what every instruction does to the pc, the status and, at a fault, the rest -/

section
namespace Sys2Proof.Machine

/-- All that an instruction can do to the sequencer (spec/40_sequencer.md section 2): take a fault with some draws spent,
halt, go on to the next word, or redirect the pc. -/
inductive ExecShape (i : Instr) (s : State) : State → Prop where
  | faulted (k : FaultKind) (d : Nat) : ExecShape i s (raise k { s with draws := s.draws + d })
  | halted (hi : i = .halt) : ExecShape i s { s with status := .halted }
  | advanced {t : State} (hstatus : t.status = s.status) (hpc : t.pc = s.pc + 1) : ExecShape i s t
  | redirected {t : State} (target : EffAddr) (hstatus : t.status = s.status) (hpc : t.pc.toNat = target.toNat)
      (hle : target.toNat ≤ 131070) (htransfer : isTransfer i = true)
      (htaken : ∀ (a b c : Fin 16) (off : Word), i = .fork a b c off → s.operand b 0 = s.operand c (drawsOf b)) :
      ExecShape i s t

namespace ExecShape

variable {i : Instr} {s t : State}

/-- A fault before any read. -/
theorem raise (k : FaultKind) : ExecShape i s (raise k s) := .faulted k 0

/-- A fault after one read. -/
theorem raise_afterRead (k : FaultKind) (r : Fin 16) : ExecShape i s (Machine.raise k (afterRead r s)) := by
  rw [afterRead_eq]
  exact .faulted k _

/-- A fault after two reads. -/
theorem raise_afterRead_afterRead (k : FaultKind) (r q : Fin 16) :
    ExecShape i s (Machine.raise k (afterRead q (afterRead r s))) := by
  rw [afterRead_eq, afterRead_draws, afterRead_eq, Nat.add_assoc]
  exact .faulted k _

theorem of_arith {alu : Word → Word → Word → Except FaultKind Word} {a b c : Nat} {imm : Word}
    (h : arith alu a b c imm s = .next t) : ExecShape i s t := by
  rcases arith_next h with ⟨_, _, _, _, _, _, _, _, rfl⟩ | ⟨_, j, k, f, _, _, _, _, rfl⟩ | ⟨n, _, _, rfl⟩
  · exact .advanced (by simp) (by simp)
  · exact raise_afterRead_afterRead f j k
  · exact raise _

theorem of_execLoad {a b : Nat} {off : Word} (h : execLoad a b off s = .next t) : ExecShape i s t := by
  rcases execLoad_next h with ⟨_, _, _, _, _, rfl⟩ | ⟨_, j, _, _, _, rfl⟩ | ⟨n, _, _, rfl⟩
  · exact .advanced (by simp) (by simp)
  · exact raise_afterRead _ j
  · exact raise _

theorem of_execPool {a b : Nat} {off : Word} (h : execPool a b off s = .next t) : ExecShape i s t := by
  rcases execPool_next h with ⟨_, _, _, _, _, rfl⟩ | ⟨r, j, _, _, _, rfl⟩ | ⟨n, _, _, rfl⟩
  · exact .advanced (by simp) (by simp)
  · exact raise_afterRead_afterRead _ r j
  · exact raise _

theorem of_execCout {a : Nat} (h : execCout a s = .next t) : ExecShape i s t := by
  rcases execCout_next h with ⟨_, _, rfl⟩ | ⟨_, rfl⟩
  · exact .advanced (by simp) (by simp)
  · exact raise _

theorem of_execIout {a : Nat} (h : execIout a s = .next t) : ExecShape i s t := by
  rcases execIout_next h with ⟨_, _, rfl⟩ | ⟨_, rfl⟩
  · exact .advanced (by simp) (by simp)
  · exact raise _

theorem of_execJump {a : Nat} {off : Word} (h : execJump a off s = .next t) : ExecShape (.jump a off) s t := by
  rcases execJump_next h with ⟨_, _, rfl⟩ | ⟨_, rfl⟩
  · exact .redirected _ (by simp) (jumpTo_pc_toNat _ _) (basePlusOffset_le _ _) rfl nofun
  · exact raise _

theorem of_execFork {a b c : Nat} {off : Word} (h : execFork a b c off s = .next t) :
    ExecShape (.fork a b c off) s t := by
  rcases execFork_next h with ⟨_, j, k, _, rfl, rfl, heq, rfl⟩ | ⟨_, _, _, _, _, _, _, rfl⟩ | ⟨n, _, _, rfl⟩
  · refine .redirected _ (by simp) (jumpTo_pc_toNat _ _) (basePlusOffset_le _ _) rfl ?_
    intro a' b' c' off' hfork
    obtain ⟨_, hb, hc, _⟩ := Instr.fork.inj hfork
    rw [← Fin.ext hb, ← Fin.ext hc]
    exact heq
  · exact .advanced (by simp) (by simp)
  · exact raise _

end ExecShape

/-- Every next state of an instruction has one of the four shapes. -/
theorem exec_shape {i : Instr} {s t : State} (h : exec i s = .next t) : ExecShape i s t := by
  cases i with
  | noop => cases h; exact .advanced rfl rfl
  | halt => cases h; exact .halted rfl
  | cout a => exact .of_execCout h
  | iout a => exact .of_execIout h
  | jump a off => exact .of_execJump h
  | fork a b c off => exact .of_execFork h
  | load a b off => exact .of_execLoad h
  | pool a b off => exact .of_execPool h
  | iadd a b c imm => exact .of_arith (alu := fun l r i => .ok (aluAdd l r i)) h
  | isub a b c imm => exact .of_arith (alu := fun l r i => .ok (aluSub l r i)) h
  | imul a b c imm => exact .of_arith (alu := fun l r i => .ok (aluMul l r i)) h
  | idiv a b c imm => exact .of_arith h
  | errorC => cases h; exact .raise _
  | errorD => cases h; exact .raise _
  | errorE => cases h; exact .raise _
  | errorF => cases h; exact .raise _

/-- A fetched word is the word at the pc. -/
theorem wordAt_of_ifetch {s : State} {w : InstrWord} (h : ifetch s = .word w) :
    wordAt s.prog s.pc.toNat = some w := by
  unfold ifetch at h
  split at h
  · cases h
  · split at h
    · next hw => cases h; exact hw
    · cases h

/-- Where there is a word, the program is longer than the pc. -/
theorem pc_lt_progWords {s : State} {w : InstrWord} (h : wordAt s.prog s.pc.toNat = some w) :
    s.pc.toNat < s.progWords := by
  have hsome := wordAt_isSome s.prog s.pc.toNat
  rw [h] at hsome
  simpa [State.progWords] using hsome

/-- Under the invariant the pc of a word in the program has a successor (R28). -/
theorem State.Inv.pc_succ_toNat {s : State} {w : InstrWord} (hinv : s.Inv)
    (h : wordAt s.prog s.pc.toNat = some w) : (s.pc + 1).toNat = s.pc.toNat + 1 := by
  have hlt := pc_lt_progWords h
  have hbound := hinv.prog_bound
  have hone : (1 : WordIndex).toNat = 1 := rfl
  rw [BitVec.toNat_add_of_lt (by omega), hone]

/-- Opcode 1 and no other decodes to HALT (R65). -/
theorem decode_eq_halt_iff (w : InstrWord) : decode w = .halt ↔ opField w = 1 := by
  constructor
  · intro h
    unfold decode at h
    split at h
    case h_2 hop => exact hop
    all_goals cases h
  · intro h
    simp [decode, h]

/-- Settles O15: the decoder's second row, the packed word of opcode 1, and HALT's meaning. -/
theorem haltEndsRun : Obligations.HaltEndsRun :=
  ⟨fun w h => (decode_eq_halt_iff w).mpr h, by decide, fun _ => rfl⟩

/-- Settles O50: of the four shapes only HALT's turns a running status into Halted. -/
theorem haltedOnlyByHalt : Obligations.HaltedOnlyByHalt := by
  intro s t h hhalted
  obtain ⟨hrun, ⟨_, rfl⟩ | ⟨_, rfl⟩ | ⟨w, hfetch, hexec⟩⟩ := step_next h
  · simp at hhalted
  · simp at hhalted
  · have hstill : t.status ≠ (afterFetch s).status := by simp [hhalted, hrun]
    cases exec_shape hexec with
    | faulted k d => simp at hhalted
    | halted hi => exact ⟨rfl, w, wordAt_of_ifetch hfetch, (decode_eq_halt_iff w).mp hi⟩
    | advanced hstatus _ => exact absurd hstatus hstill
    | redirected _ hstatus _ _ _ _ => exact absurd hstatus hstill

/-- Settles O23: the four shapes of an instruction, with the program's bound for the one that adds to the pc. -/
theorem pcNeverWraps : Obligations.PcNeverWraps := by
  intro s t hinv h
  obtain ⟨hrun, ⟨_, rfl⟩ | ⟨_, rfl⟩ | ⟨w, hfetch, hexec⟩⟩ := step_next h
  · exact ⟨fun _ => rfl, nofun⟩
  · exact ⟨fun _ => rfl, nofun⟩
  · have hword := wordAt_of_ifetch hfetch
    cases exec_shape hexec with
    | faulted k d => exact ⟨fun _ => rfl, nofun⟩
    | halted _ => exact ⟨fun _ => rfl, nofun⟩
    | advanced hstatus hpc =>
      have hsucc : t.pc.toNat = s.pc.toNat + 1 := by rw [hpc]; exact hinv.pc_succ_toNat hword
      exact ⟨fun hne => absurd (hstatus.trans hrun) hne,
        fun _ => ⟨w, hword, fun _ => hsucc, fun _ _ _ _ _ _ => hsucc, fun _ => .inl hsucc⟩⟩
    | redirected target hstatus hpc hle htransfer htaken =>
      refine ⟨fun hne => absurd (hstatus.trans hrun) hne, fun _ => ⟨w, hword, ?_, ?_, ?_⟩⟩
      · intro hno
        exact absurd htransfer (by simp [hno])
      · intro a b c off hfork hne
        exact absurd (htaken a b c off hfork) hne
      · exact fun _ => .inr (hpc ▸ hle)

end Sys2Proof.Machine
end

/-! ### The ten instructions that write neither a register nor memory -/

section
namespace Sys2Proof.Machine

variable {i : Instr} {s t : State}

/-- The frame of an instruction that writes neither a register nor memory, as `NonWritersFrame` states it. -/
def NonWriterFrame (i : Instr) (s t : State) : Prop :=
  t.regs = s.regs ∧ (∀ x, t.byteAt x = s.byteAt x) ∧ t.memSize = s.memSize ∧ t.prog = s.prog ∧
  t.storeEvents = s.storeEvents ∧ s.out <+: t.out ∧ (isOutput i = false → t.out = s.out) ∧
  (isOutput i = true ∨ isTransfer i = true → i.wellFormed = true → t.status = s.status)

/-- A well-formed instruction names no index outside the bank. -/
theorem lt_of_wellFormed {n : Nat} (hwf : i.wellFormed = true) (hn : n ∈ i.registries) : n < 16 := by
  simpa using List.all_eq_true.mp hwf n hn

namespace NonWriterFrame

/-- A fault of an instruction that is no output and no transfer. -/
theorem raise (k : FaultKind) (hout : isOutput i = false) (htransfer : isTransfer i = false) :
    NonWriterFrame i s (raise k s) := by
  simp [NonWriterFrame, State.byteAt, hout, htransfer]

/-- The bank's refusal of an operand, which a well-formed instruction does not meet. -/
theorem raise_invalidRegistry {n : Nat} (hn : n ∈ i.registries) (hge : 16 ≤ n) :
    NonWriterFrame i s (Machine.raise (.invalidRegistry n) s) := by
  have hbad : i.wellFormed = false :=
    Bool.eq_false_iff.mpr fun hwf => absurd (lt_of_wellFormed hwf hn) (Nat.not_lt.mpr hge)
  simp [NonWriterFrame, State.byteAt, hbad]

/-- The good end of an output instruction. -/
theorem output (bs : List Byte) (r : Fin 16) (hout : isOutput i = true) :
    NonWriterFrame i s (advance (emit bs (afterRead r s))) := by
  simp [NonWriterFrame, State.byteAt, hout]

theorem of_execCout {a : Nat} (h : execCout a s = .next t) : NonWriterFrame (.cout a) s t := by
  rcases execCout_next h with ⟨r, rfl, rfl⟩ | ⟨ha, rfl⟩
  · exact output _ r rfl
  · exact raise_invalidRegistry (by simp [Instr.registries]) ha

theorem of_execIout {a : Nat} (h : execIout a s = .next t) : NonWriterFrame (.iout a) s t := by
  rcases execIout_next h with ⟨r, rfl, rfl⟩ | ⟨ha, rfl⟩
  · exact output _ r rfl
  · exact raise_invalidRegistry (by simp [Instr.registries]) ha

theorem of_execJump {a : Nat} {off : Word} (h : execJump a off s = .next t) : NonWriterFrame (.jump a off) s t := by
  rcases execJump_next h with ⟨r, rfl, rfl⟩ | ⟨ha, rfl⟩
  · simp [NonWriterFrame, State.byteAt]
  · exact raise_invalidRegistry (by simp [Instr.registries]) ha

theorem of_execFork {a b c : Nat} {off : Word} (h : execFork a b c off s = .next t) :
    NonWriterFrame (.fork a b c off) s t := by
  rcases execFork_next h with ⟨_, _, _, _, _, _, _, rfl⟩ | ⟨_, _, _, _, _, _, _, rfl⟩ | ⟨n, hge, hn, rfl⟩
  · simp [NonWriterFrame, State.byteAt]
  · simp [NonWriterFrame, State.byteAt]
  · exact raise_invalidRegistry (by simpa [Instr.registries] using hn) hge

end NonWriterFrame

/-- Settles O45: the frame of each of the ten instructions. -/
theorem nonWritersFrame : Obligations.NonWritersFrame := by
  intro i s t hdest hstore h
  change NonWriterFrame i s t
  cases i with
  | noop => cases h; simp [NonWriterFrame, State.byteAt]
  | halt => cases h; simp [NonWriterFrame, State.byteAt, isOutput, isTransfer]
  | cout a => exact .of_execCout h
  | iout a => exact .of_execIout h
  | jump a off => exact .of_execJump h
  | fork a b c off => exact .of_execFork h
  | load a b off => cases hdest
  | pool a b off => cases hstore
  | iadd a b c imm => cases hdest
  | isub a b c imm => cases hdest
  | imul a b c imm => cases hdest
  | idiv a b c imm => cases hdest
  | errorC => cases h; exact .raise _ rfl rfl
  | errorD => cases h; exact .raise _ rfl rfl
  | errorE => cases h; exact .raise _ rfl rfl
  | errorF => cases h; exact .raise _ rfl rfl

end Sys2Proof.Machine
end

/-! ### The cell behind register 3: a relation on states that every operation keeps -/

section
namespace Sys2Proof.Machine

/-- `s` with `v` in the cell behind register 3 (R21). -/
def State.withHidden (v : Word) (s : State) : State := { s with regs := s.regs.set 3 v }

/-- The two states differ at most in the cell behind register 3. -/
def HiddenVariant (s u : State) : Prop := ∃ v : Word, u = s.withHidden v

/-- Whenever the first answer is a next state, so is the second, and the two states differ at most in the hidden cell. -/
def AgreeUpToHidden (r q : Result) : Prop :=
  ∀ t, r = .next t → ∃ u, q = .next u ∧ HiddenVariant t u

namespace HiddenVariant

variable {s u : State}

/-- An operation that leaves the registers alone keeps the relation. -/
theorem map {f : State → State} (h : HiddenVariant s u)
    (hf : ∀ (s : State) (v : Word), f (s.withHidden v) = (f s).withHidden v) : HiddenVariant (f s) (f u) := by
  obtain ⟨v, rfl⟩ := h
  exact ⟨v, hf s v⟩

theorem advance (h : HiddenVariant s u) : HiddenVariant (advance s) (advance u) := h.map fun _ _ => rfl

theorem emit (h : HiddenVariant s u) (bs : List Byte) : HiddenVariant (emit bs s) (emit bs u) :=
  h.map fun _ _ => rfl

theorem afterRead (h : HiddenVariant s u) (i : Fin 16) : HiddenVariant (afterRead i s) (afterRead i u) :=
  h.map fun _ _ => by rw [afterRead_eq, afterRead_eq]; rfl

/-- A write makes the hidden cells equal, or leaves them as they are. -/
theorem writeReg (h : HiddenVariant s u) (i : Fin 16) (x : Word) :
    HiddenVariant (writeReg i x s) (writeReg i x u) := by
  obtain ⟨v, rfl⟩ := h
  by_cases hi : i.val = 3
  · exact ⟨x, by simp [Machine.writeReg, State.withHidden, hi]⟩
  · exact ⟨v, by simp [Machine.writeReg, State.withHidden, Vector.set_comm x v hi]⟩

/-- No operand read sees the hidden cell: register 3 gives a draw (R23), every other register its own cell. -/
theorem operand_eq (h : HiddenVariant s u) (i : Fin 16) (k : Nat) : u.operand i k = s.operand i k := by
  obtain ⟨v, rfl⟩ := h
  unfold State.operand
  split
  · rfl
  · next hi =>
    have hne : 3 ≠ i.val := fun e => hi (Fin.ext e.symm)
    exact Vector.getElem_set_ne (by decide) i.isLt hne

theorem status_eq (h : HiddenVariant s u) : u.status = s.status := by
  obtain ⟨v, rfl⟩ := h; rfl

theorem ifetch_eq (h : HiddenVariant s u) : ifetch u = ifetch s := by
  obtain ⟨v, rfl⟩ := h; rfl

theorem memRead_eq (h : HiddenVariant s u) (ea : EffAddr) : memRead ea u = memRead ea s := by
  obtain ⟨v, rfl⟩ := h; rfl

end HiddenVariant

namespace AgreeUpToHidden

variable {s u : State}

theorem next (h : HiddenVariant s u) : AgreeUpToHidden (.next s) (.next u) := by
  intro t ht
  cases ht
  exact ⟨u, rfl, h⟩

theorem raise (k : FaultKind) (h : HiddenVariant s u) :
    AgreeUpToHidden (.next (raise k s)) (.next (Machine.raise k u)) :=
  next (h.map fun _ _ => rfl)

/-- A check of the same value, then answers that agree. -/
theorem orRaise {α : Type} {e : Except FaultKind α} {k l : α → Result} (h : HiddenVariant s u)
    (hk : ∀ x, AgreeUpToHidden (k x) (l x)) : AgreeUpToHidden (orRaise e s k) (Machine.orRaise e u l) := by
  cases e with
  | ok x => exact hk x
  | error f => exact raise f h

/-- Both states read the same value and stay related. -/
theorem withRead {i : Fin 16} {k : Word → State → Result} (h : HiddenVariant s u)
    (hk : ∀ (x : Word) {s' u' : State}, HiddenVariant s' u' → AgreeUpToHidden (k x s') (k x u')) :
    AgreeUpToHidden (withRead i s k) (Machine.withRead i u k) := by
  rw [withRead_apply, withRead_apply, h.operand_eq]
  exact hk _ (h.afterRead i)

/-- Both states store, or both take the same fault. -/
theorem orRaise_memWrite {ea : EffAddr} {x : Word} {k : State → Result} (h : HiddenVariant s u)
    (hk : ∀ {s' u' : State}, HiddenVariant s' u' → AgreeUpToHidden (k s') (k u')) :
    AgreeUpToHidden (Machine.orRaise (memWrite ea x s) s k) (Machine.orRaise (memWrite ea x u) u k) := by
  have hbounds : inBounds u ea = inBounds s ea := by obtain ⟨v, rfl⟩ := h; rfl
  unfold memWrite
  rw [hbounds]
  split
  · exact hk (h.map (f := fun s => { s with mem := s.mem.writeWord ea.toNat x }) fun _ _ => rfl)
  · exact raise _ h

theorem arith (alu : Word → Word → Word → Except FaultKind Word) (a b c : Nat) (imm : Word) (h : HiddenVariant s u) :
    AgreeUpToHidden (arith alu a b c imm s) (Machine.arith alu a b c imm u) :=
  orRaise h fun dst => orRaise h fun _ => orRaise h fun _ =>
  withRead h fun _ _ _ h₁ => withRead h₁ fun _ _ _ h₂ =>
  orRaise h₂ fun x => next (h₂.writeReg dst x).advance

theorem execCout (a : Nat) (h : HiddenVariant s u) : AgreeUpToHidden (execCout a s) (Machine.execCout a u) :=
  orRaise h fun _ => withRead h fun _ _ _ h₁ => next (h₁.emit _).advance

theorem execIout (a : Nat) (h : HiddenVariant s u) : AgreeUpToHidden (execIout a s) (Machine.execIout a u) :=
  orRaise h fun _ => withRead h fun _ _ _ h₁ => next (h₁.emit _).advance

theorem execJump (a : Nat) (off : Word) (h : HiddenVariant s u) :
    AgreeUpToHidden (execJump a off s) (Machine.execJump a off u) :=
  orRaise h fun _ => withRead h fun _ _ _ h₁ => next (h₁.map fun _ _ => rfl)

theorem execFork (a b c : Nat) (off : Word) (h : HiddenVariant s u) :
    AgreeUpToHidden (execFork a b c off s) (Machine.execFork a b c off u) := by
  refine orRaise h fun reg => orRaise h fun _ => orRaise h fun _ =>
    withRead h fun x _ _ h₁ => withRead h₁ fun y _ _ h₂ => ?_
  by_cases hxy : x = y
  · simp only [if_pos hxy]
    exact withRead h₂ fun _ _ _ h₃ => next (h₃.map fun _ _ => rfl)
  · simp only [if_neg hxy]
    exact next h₂.advance

theorem execLoad (a b : Nat) (off : Word) (h : HiddenVariant s u) :
    AgreeUpToHidden (execLoad a b off s) (Machine.execLoad a b off u) := by
  refine orRaise h fun dst => orRaise h fun _ => withRead h fun _ _ _ h₁ => ?_
  rw [h₁.memRead_eq]
  exact orRaise h₁ fun x => next (h₁.writeReg dst x).advance

theorem execPool (a b : Nat) (off : Word) (h : HiddenVariant s u) :
    AgreeUpToHidden (execPool a b off s) (Machine.execPool a b off u) :=
  orRaise h fun _ => orRaise h fun _ =>
  withRead h fun _ _ _ h₁ => withRead h₁ fun _ _ _ h₂ =>
  orRaise_memWrite h₂ fun h₃ => next h₃.advance

theorem exec (i : Instr) (h : HiddenVariant s u) : AgreeUpToHidden (exec i s) (Machine.exec i u) := by
  cases i with
  | noop => exact next h.advance
  | halt => exact next (h.map (f := fun s => { s with status := .halted }) fun _ _ => rfl)
  | cout a => exact execCout a h
  | iout a => exact execIout a h
  | jump a off => exact execJump a off h
  | fork a b c off => exact execFork a b c off h
  | load a b off => exact execLoad a b off h
  | pool a b off => exact execPool a b off h
  | iadd a b c imm => exact arith (fun l r i => .ok (aluAdd l r i)) a b c imm h
  | isub a b c imm => exact arith (fun l r i => .ok (aluSub l r i)) a b c imm h
  | imul a b c imm => exact arith (fun l r i => .ok (aluMul l r i)) a b c imm h
  | idiv a b c imm => exact arith aluDiv a b c imm h
  | errorC => exact raise _ h
  | errorD => exact raise _ h
  | errorE => exact raise _ h
  | errorF => exact raise _ h

/-- The fetch sees neither register nor cell, so both steps take the same branch. -/
theorem step (h : HiddenVariant s u) : AgreeUpToHidden (step s) (Machine.step u) := by
  have hfetched : HiddenVariant (afterFetch s) (afterFetch u) := h.map fun _ _ => rfl
  unfold Machine.step
  rw [h.status_eq, h.ifetch_eq]
  cases s.status with
  | halted => exact nofun
  | faulted k => exact nofun
  | running =>
    cases ifetch s with
    | err => exact raise _ hfetched
    | endOfStore => exact raise _ hfetched
    | word w => exact exec (decode w) hfetched

end AgreeUpToHidden

/-- Settles O41: a step keeps the relation "differ at most in the hidden cell". -/
theorem hiddenCellIsUnobservable : Obligations.HiddenCellIsUnobservable := by
  intro s t v h
  obtain ⟨u, hu, v', rfl⟩ := AgreeUpToHidden.step ⟨v, rfl⟩ t h
  exact ⟨v', hu⟩

end Sys2Proof.Machine
end

/-! ### The word in the program store: its number, its opcode and its immediate from its four bytes -/

section
namespace Sys2Proof.Machine

/-- The opcode is the word's number above bit 28 (R61). -/
theorem opField_eq_div (w : InstrWord) : opField w = w.toNat / 2 ^ 28 := by
  have hw := w.isLt
  rw [opField, BitVec.extractLsb'_toNat, Nat.shiftRight_eq_div_pow]
  omega

/-- The immediate is the word's number below bit 16 (R61). -/
theorem iField_toNat (w : InstrWord) : (iField w).toNat = w.toNat % 2 ^ 16 := by
  rw [iField, BitVec.extractLsb'_toNat, Nat.shiftRight_zero]

/-- The number of a pattern with one more byte at its low end. -/
theorem toNat_append_byte {n : Nat} (x : BitVec n) (b : Byte) : (x ++ b).toNat = x.toNat * 2 ^ 8 + b.toNat := by
  rw [BitVec.toNat_append, Nat.shiftLeft_eq, Nat.mul_comm, ← Nat.two_pow_add_eq_or_of_lt b.isLt]

/-- The number of a word, its first byte the most significant (R43). -/
theorem fourBytes_toNat (b0 b1 b2 b3 : Byte) :
    (b0 ++ b1 ++ b2 ++ b3 : InstrWord).toNat =
      b0.toNat * 2 ^ 24 + b1.toNat * 2 ^ 16 + b2.toNat * 2 ^ 8 + b3.toNat := by
  rw [toNat_append_byte, toNat_append_byte, toNat_append_byte]
  omega

/-- Settles O6: the number of the four bytes, and the two fields as parts of that number. -/
theorem instructionBytesAreBigEndian : Obligations.InstructionBytesAreBigEndian := by
  intro prog rest p b0 b1 b2 b3 h
  have hvalue := fourBytes_toNat b0 b1 b2 b3
  have h1 := b1.isLt
  have h2 := b2.isLt
  have h3 := b3.isLt
  refine ⟨b0 ++ b1 ++ b2 ++ b3, wordAt_of_drop h, hvalue, ?_, ?_⟩
  · rw [opField_eq_div, hvalue]
    omega
  · rw [iField_toNat, hvalue]
    omega

end Sys2Proof.Machine
end

/-! ### The memory size: no step changes it, and past the reach of every address no step sees it -/

section
namespace Sys2Proof.Machine

section
variable {s t : State}

theorem arith_keeps_parameters {alu : Word → Word → Word → Except FaultKind Word} {a b c : Nat} {imm : Word}
    (h : arith alu a b c imm s = .next t) : t.prog = s.prog ∧ t.memSize = s.memSize := by
  rcases arith_next h with ⟨_, _, _, _, _, _, _, _, rfl⟩ | ⟨_, _, _, _, _, _, _, _, rfl⟩ | ⟨_, _, _, rfl⟩ <;> simp

theorem execLoad_keeps_parameters {a b : Nat} {off : Word} (h : execLoad a b off s = .next t) :
    t.prog = s.prog ∧ t.memSize = s.memSize := by
  rcases execLoad_next h with ⟨_, _, _, _, _, rfl⟩ | ⟨_, _, _, _, _, rfl⟩ | ⟨_, _, _, rfl⟩ <;> simp

theorem execPool_keeps_parameters {a b : Nat} {off : Word} (h : execPool a b off s = .next t) :
    t.prog = s.prog ∧ t.memSize = s.memSize := by
  rcases execPool_next h with ⟨_, _, _, _, _, rfl⟩ | ⟨_, _, _, _, _, rfl⟩ | ⟨_, _, _, rfl⟩ <;> simp

theorem nonWriter_keeps_parameters {i : Instr} (hdest : destination i = none) (hstore : isStore i = false)
    (h : exec i s = .next t) : t.prog = s.prog ∧ t.memSize = s.memSize := by
  obtain ⟨_, _, hsize, hprog, _⟩ := nonWritersFrame i s t hdest hstore h
  exact ⟨hprog, hsize⟩

/-- No instruction changes the parameters of R7. -/
theorem exec_keeps_parameters {i : Instr} (h : exec i s = .next t) : t.prog = s.prog ∧ t.memSize = s.memSize := by
  cases i with
  | load a b off => exact execLoad_keeps_parameters h
  | pool a b off => exact execPool_keeps_parameters h
  | iadd a b c imm => exact arith_keeps_parameters (alu := fun l r i => .ok (aluAdd l r i)) h
  | isub a b c imm => exact arith_keeps_parameters (alu := fun l r i => .ok (aluSub l r i)) h
  | imul a b c imm => exact arith_keeps_parameters (alu := fun l r i => .ok (aluMul l r i)) h
  | idiv a b c imm => exact arith_keeps_parameters h
  | _ => exact nonWriter_keeps_parameters rfl rfl h

end

/-- Settles O47: neither a fault at the fetch nor an instruction changes a parameter. -/
theorem programAndMemorySizeAreFixed : Obligations.ProgramAndMemorySizeAreFixed := by
  intro s t h
  obtain ⟨_, ⟨_, rfl⟩ | ⟨_, rfl⟩ | ⟨w, _, hexec⟩⟩ := step_next h
  · exact ⟨rfl, rfl⟩
  · exact ⟨rfl, rfl⟩
  · exact exec_keeps_parameters (s := afterFetch s) hexec

/-- `s` with another memory size (R7). -/
def State.withMemSize (size : Nat) (s : State) : State := { s with memSize := size }

/-- The same answer, with `f` applied to the next state if there is one. -/
def mapNext (f : State → State) : Result → Result
  | .next t => .next (f t)
  | .fault r => .fault r
  | .refused r => .refused r

variable {size : Nat} {s : State}

theorem operand_withMemSize (i : Fin 16) (k : Nat) : (s.withMemSize size).operand i k = s.operand i k := rfl

theorem afterRead_withMemSize (i : Fin 16) :
    afterRead i (s.withMemSize size) = (afterRead i s).withMemSize size := by
  rw [afterRead_eq, afterRead_eq]; rfl

/-- Every access an instruction can form lies in a segment of 131072 bytes (R46). -/
theorem inBounds_of_reach (h : 131072 ≤ s.memSize) (base off : Word) :
    inBounds s (basePlusOffset base off) = true := by
  have hle := basePlusOffset_le base off
  rw [inBounds_iff]
  omega

/-- A check of one value: the fault in both, or answers that correspond. -/
theorem orRaise_withMemSize {α : Type} {e : Except FaultKind α} {k l : α → Result}
    (h : ∀ x, l x = mapNext (State.withMemSize size) (k x)) :
    orRaise e (s.withMemSize size) l = mapNext (State.withMemSize size) (orRaise e s k) := by
  cases e with
  | ok x => exact h x
  | error f => rfl

/-- A register read gives the same value at either size. -/
theorem withRead_withMemSize {i : Fin 16} {k l : Word → State → Result}
    (h : ∀ x, l x ((afterRead i s).withMemSize size) = mapNext (State.withMemSize size) (k x (afterRead i s))) :
    withRead i (s.withMemSize size) l = mapNext (State.withMemSize size) (withRead i s k) := by
  rw [withRead_apply, withRead_apply, operand_withMemSize, afterRead_withMemSize]
  exact h _

theorem arith_withMemSize (alu : Word → Word → Word → Except FaultKind Word) (a b c : Nat) (imm : Word) :
    arith alu a b c imm (s.withMemSize size) = mapNext (State.withMemSize size) (arith alu a b c imm s) :=
  orRaise_withMemSize fun _ => orRaise_withMemSize fun _ => orRaise_withMemSize fun _ =>
  withRead_withMemSize fun _ => withRead_withMemSize fun _ => orRaise_withMemSize fun _ => rfl

theorem execFork_withMemSize (a b c : Nat) (off : Word) :
    execFork a b c off (s.withMemSize size) = mapNext (State.withMemSize size) (execFork a b c off s) := by
  refine orRaise_withMemSize fun reg => orRaise_withMemSize fun _ => orRaise_withMemSize fun _ =>
    withRead_withMemSize fun x => withRead_withMemSize fun y => ?_
  by_cases hxy : x = y
  · simp only [if_pos hxy]
    exact withRead_withMemSize fun _ => rfl
  · simp only [if_neg hxy]
    rfl

/-- At two sizes beyond reach LOAD reads the same bytes. -/
theorem execLoad_withMemSize (a b : Nat) (off : Word) (hs : 131072 ≤ s.memSize) (hsize : 131072 ≤ size) :
    execLoad a b off (s.withMemSize size) = mapNext (State.withMemSize size) (execLoad a b off s) := by
  refine orRaise_withMemSize fun dst => orRaise_withMemSize fun base => withRead_withMemSize fun v => ?_
  have hin : inBounds (afterRead base s) (basePlusOffset v off) = true := inBounds_of_reach (by simpa using hs) v off
  have hin' : inBounds ((afterRead base s).withMemSize size) (basePlusOffset v off) = true :=
    inBounds_of_reach hsize v off
  unfold memRead
  rw [if_pos hin, if_pos hin']
  rfl

/-- At two sizes beyond reach POOL stores the same bytes. -/
theorem execPool_withMemSize (a b : Nat) (off : Word) (hs : 131072 ≤ s.memSize) (hsize : 131072 ≤ size) :
    execPool a b off (s.withMemSize size) = mapNext (State.withMemSize size) (execPool a b off s) := by
  refine orRaise_withMemSize fun src => orRaise_withMemSize fun base =>
    withRead_withMemSize fun x => withRead_withMemSize fun v => ?_
  have hin : inBounds (afterRead base (afterRead src s)) (basePlusOffset v off) = true :=
    inBounds_of_reach (by simpa using hs) v off
  have hin' : inBounds ((afterRead base (afterRead src s)).withMemSize size) (basePlusOffset v off) = true :=
    inBounds_of_reach hsize v off
  unfold memWrite
  rw [if_pos hin, if_pos hin']
  rfl

/-- At two sizes beyond reach every instruction answers alike; only LOAD and POOL look at the size. -/
theorem exec_withMemSize (i : Instr) (hs : 131072 ≤ s.memSize) (hsize : 131072 ≤ size) :
    exec i (s.withMemSize size) = mapNext (State.withMemSize size) (exec i s) := by
  cases i with
  | cout a => exact orRaise_withMemSize fun _ => withRead_withMemSize fun _ => rfl
  | iout a => exact orRaise_withMemSize fun _ => withRead_withMemSize fun _ => rfl
  | jump a off => exact orRaise_withMemSize fun _ => withRead_withMemSize fun _ => rfl
  | fork a b c off => exact execFork_withMemSize a b c off
  | load a b off => exact execLoad_withMemSize a b off hs hsize
  | pool a b off => exact execPool_withMemSize a b off hs hsize
  | iadd a b c imm => exact arith_withMemSize (fun l r i => .ok (aluAdd l r i)) a b c imm
  | isub a b c imm => exact arith_withMemSize (fun l r i => .ok (aluSub l r i)) a b c imm
  | imul a b c imm => exact arith_withMemSize (fun l r i => .ok (aluMul l r i)) a b c imm
  | idiv a b c imm => exact arith_withMemSize aluDiv a b c imm
  | _ => rfl

/-- The fetch does not look at the memory size, so the steps at two sizes beyond reach answer alike. -/
theorem step_withMemSize (hs : 131072 ≤ s.memSize) (hsize : 131072 ≤ size) :
    step (s.withMemSize size) = mapNext (State.withMemSize size) (step s) := by
  have hstatus : (s.withMemSize size).status = s.status := rfl
  have hfetch : ifetch (s.withMemSize size) = ifetch s := rfl
  unfold step
  rw [hstatus, hfetch]
  cases s.status with
  | halted => rfl
  | faulted k => rfl
  | running =>
    cases ifetch s with
    | err => rfl
    | endOfStore => rfl
    | word w => exact exec_withMemSize (s := afterFetch s) (decode w) hs hsize

/-- Settles O30: the step at the other size is the step with its next state at the other size. -/
theorem sizesBeyondReachAreAlike : Obligations.SizesBeyondReachAreAlike := by
  intro s t size hs hsize h
  calc step (s.withMemSize size)
      _ = mapNext (State.withMemSize size) (step s) := step_withMemSize hs hsize
      _ = .next (t.withMemSize size) := by rw [h]; rfl

end Sys2Proof.Machine
end

/-! ### The five fields of a word: what a word of given fields decodes to, and which fields its opcode uses -/

section
namespace Sys2Proof.Machine

open BitVec

/-! A word laid out from five patterns has them as its fields (R61). -/

section
variable (o a b c : BitVec 4) (i : Word)

@[simp] theorem iField_append : iField (o ++ a ++ b ++ c ++ i) = i := extractLsb'_append_eq_right

@[simp] theorem cField_append : cField (o ++ a ++ b ++ c ++ i) = c.toNat :=
  congrArg BitVec.toNat <| (extractLsb'_append_eq_of_le (by decide)).trans extractLsb'_append_eq_right

@[simp] theorem bField_append : bField (o ++ a ++ b ++ c ++ i) = b.toNat :=
  congrArg BitVec.toNat <| (extractLsb'_append_eq_of_le (by decide)).trans <|
    (extractLsb'_append_eq_of_le (by decide)).trans extractLsb'_append_eq_right

@[simp] theorem aField_append : aField (o ++ a ++ b ++ c ++ i) = a.toNat :=
  congrArg BitVec.toNat <| (extractLsb'_append_eq_of_le (by decide)).trans <|
    (extractLsb'_append_eq_of_le (by decide)).trans <|
      (extractLsb'_append_eq_of_le (by decide)).trans extractLsb'_append_eq_right

@[simp] theorem opField_append : opField (o ++ a ++ b ++ c ++ i) = o.toNat := by
  have h : (o ++ a ++ b ++ c ++ i).extractLsb' 28 4 = o := by
    rw [extractLsb'_append_eq_of_le (by decide), extractLsb'_append_eq_of_le (by decide),
      extractLsb'_append_eq_of_le (by decide)]
    exact extractLsb'_append_eq_left
  exact congrArg BitVec.toNat h

end

/-- Settles O1: the opcode field selects the row, and every other field is the pattern laid out there. -/
theorem decodeReadsEveryField : Obligations.DecodeReadsEveryField := by
  intro a b c i
  simp [decode, opField_append, aField_append, bField_append, cField_append, iField_append]

/-! Packing is that layout with each number cut to its four bits. -/

section
variable (op a b c : Nat) (i : Word)

@[simp] theorem opField_packWord : opField (packWord op a b c i) = op % 16 := by simp [packWord]
@[simp] theorem aField_packWord : aField (packWord op a b c i) = a % 16 := by simp [packWord]
@[simp] theorem bField_packWord : bField (packWord op a b c i) = b % 16 := by simp [packWord]
@[simp] theorem cField_packWord : cField (packWord op a b c i) = c % 16 := by simp [packWord]
@[simp] theorem iField_packWord : iField (packWord op a b c i) = i := by simp [packWord]

end

section
variable (w : InstrWord)

theorem opField_lt : opField w < 16 := (w.extractLsb' 28 4).isLt
theorem aField_lt : aField w < 16 := (w.extractLsb' 24 4).isLt
theorem bField_lt : bField w < 16 := (w.extractLsb' 20 4).isLt
theorem cField_lt : cField w < 16 := (w.extractLsb' 16 4).isLt

/-- A word is its fields, packed. -/
theorem packWord_fields : packWord (opField w) (aField w) (bField w) (cField w) (iField w) = w := by
  simp only [packWord, opField, aField, bField, cField, iField, ofNat_toNat, setWidth_eq]
  rw [extractLsb'_append_extractLsb'_eq_extractLsb' (by decide),
    extractLsb'_append_extractLsb'_eq_extractLsb' (by decide),
    extractLsb'_append_extractLsb'_eq_extractLsb' (by decide),
    extractLsb'_append_extractLsb'_eq_extractLsb' (by decide)]
  exact extractLsb'_eq_self

/-- Masking works field by field. -/
theorem and_packWord (op a b c : Nat) (i : Word) :
    w &&& packWord op a b c i =
      packWord (opField w &&& op) (aField w &&& a) (bField w &&& b) (cField w &&& c) (iField w &&& i) := by
  conv_lhs => rw [← packWord_fields w]
  simp only [packWord, ofNat_and, ← and_append]

/-- A field under a full nibble. -/
theorem and_fifteen {n : Nat} (h : n < 16) : n &&& 15 = n := Nat.and_two_pow_sub_one_of_lt_two_pow (n := 4) h

/-- An immediate under a full half word. -/
theorem and_fullImmediate (i : Word) : i &&& 0xFFFF#16 = i := BitVec.and_allOnes

/-! The five masks of `usedBits`, by the fields that each keeps. -/

theorem and_opMask : w &&& 0xF0000000#32 = packWord (opField w) 0 0 0 0 :=
  (and_packWord w 15 0 0 0 0).trans (by simp [and_fifteen, opField_lt])

theorem and_opAMask : w &&& 0xFF000000#32 = packWord (opField w) (aField w) 0 0 0 :=
  (and_packWord w 15 15 0 0 0).trans (by simp [and_fifteen, opField_lt, aField_lt])

theorem and_opAIMask : w &&& 0xFF00FFFF#32 = packWord (opField w) (aField w) 0 0 (iField w) :=
  (and_packWord w 15 15 0 0 0xFFFF).trans (by simp [and_fifteen, and_fullImmediate, opField_lt, aField_lt])

theorem and_opABIMask : w &&& 0xFFF0FFFF#32 = packWord (opField w) (aField w) (bField w) 0 (iField w) :=
  (and_packWord w 15 15 15 0 0xFFFF).trans
    (by simp [and_fifteen, and_fullImmediate, opField_lt, aField_lt, bField_lt])

theorem and_fullMask : w &&& 0xFFFFFFFF#32 = packWord (opField w) (aField w) (bField w) (cField w) (iField w) := by
  rw [packWord_fields]
  exact BitVec.and_allOnes

theorem opField_usedBits (op : Nat) : opField (usedBits op) = 15 := by
  unfold usedBits
  split <;> rfl

/-- Every mask keeps the opcode. -/
theorem opField_and_usedBits (op : Nat) : opField (w &&& usedBits op) = opField w :=
  calc opField (w &&& usedBits op)
      _ = opField w &&& opField (usedBits op) := by
        rw [opField, extractLsb'_and, BitVec.toNat_and]; rfl
      _ = opField w := by rw [opField_usedBits, and_fifteen (opField_lt w)]

/-- R70: the row of each opcode keeps exactly the fields under its mask. -/
theorem encode_decode : encode (decode w) = w &&& usedBits (opField w) := by
  have hlt := opField_lt w
  interval_cases hop : opField w <;>
    simp [decode, encode, usedBits, hop, and_opMask, and_opAMask, and_opAIMask, and_opABIMask, and_fullMask]

end

/-- Settles O5: a register operand is a four-bit field. -/
theorem decodedRegistersAreInRange : Obligations.DecodedRegistersAreInRange := by
  intro w
  unfold decode
  split <;> simp [Instr.wellFormed, Instr.registries, aField_lt, bField_lt, cField_lt]

/-- R70: the fields of an encoding are the operands, where they fit four bits. -/
theorem decode_encode {i : Instr} (h : i.wellFormed = true) : decode (encode i) = i := by
  cases i with
  | noop | halt | errorC | errorD | errorE | errorF => rfl
  | cout a | iout a | jump a off =>
    have ha : a < 16 := lt_of_wellFormed h (by simp [Instr.registries])
    simp [decode, encode, Nat.mod_eq_of_lt ha]
  | load a b off | pool a b off =>
    have ha : a < 16 := lt_of_wellFormed h (by simp [Instr.registries])
    have hb : b < 16 := lt_of_wellFormed h (by simp [Instr.registries])
    simp [decode, encode, Nat.mod_eq_of_lt ha, Nat.mod_eq_of_lt hb]
  | fork a b c imm | iadd a b c imm | isub a b c imm | imul a b c imm | idiv a b c imm =>
    have ha : a < 16 := lt_of_wellFormed h (by simp [Instr.registries])
    have hb : b < 16 := lt_of_wellFormed h (by simp [Instr.registries])
    have hc : c < 16 := lt_of_wellFormed h (by simp [Instr.registries])
    simp [decode, encode, Nat.mod_eq_of_lt ha, Nat.mod_eq_of_lt hb, Nat.mod_eq_of_lt hc]

/-- Re-encoding keeps the opcode. -/
theorem opField_encode_decode (w : InstrWord) : opField (encode (decode w)) = opField w := by
  rw [encode_decode, opField_and_usedBits]

/-- Settles O4: the bits under the mask are the encoding of the decoded instruction, so they and the instruction determine
each other; on both sides the two opcodes agree, which makes the masks the same. -/
theorem wordsDecodeAlikeExactlyOnUsedBits : Obligations.WordsDecodeAlikeExactlyOnUsedBits := by
  intro w v
  constructor
  · intro h
    have hop : opField w = opField v := by rw [← opField_encode_decode w, h, opField_encode_decode]
    calc w &&& usedBits (opField w)
        _ = encode (decode v) := by rw [← encode_decode, h]
        _ = v &&& usedBits (opField w) := by rw [encode_decode, hop]
  · intro h
    have hop : opField w = opField v := by
      rw [← opField_and_usedBits w (opField w), h, opField_and_usedBits]
    have hencode : encode (decode w) = encode (decode v) := by
      rw [encode_decode, h, hop, encode_decode]
    calc decode w
        _ = decode (encode (decode w)) := (decode_encode (decodedRegistersAreInRange w)).symm
        _ = decode v := by rw [hencode, decode_encode (decodedRegistersAreInRange v)]

end Sys2Proof.Machine
end

/-! ### The draw counter: an instruction that reads no register 3 neither sees nor moves it -/

section
namespace Sys2Proof.Machine

/-- `s` with another count of draws made (R23). -/
def State.withDraws (d : Nat) (s : State) : State := { s with draws := d }

/-- A computation that neither sees the draw counter nor moves it: at another count it gives the same answer, the
count apart. -/
def IgnoresDraws (f : State → Result) : Prop :=
  ∀ (s : State) (d : Nat), f (s.withDraws d) = mapNext (State.withDraws d) (f s)

namespace IgnoresDraws

/-- The count itself is kept: at its own count a state is no other state. -/
theorem draws_eq {f : State → Result} (hf : IgnoresDraws f) {s t : State} (h : f s = .next t) :
    t.draws = s.draws := by
  have hsame : f s = mapNext (State.withDraws s.draws) (f s) := hf s s.draws
  rw [h] at hsame
  have ht : t = t.withDraws s.draws := Host.Outcome.next.inj hsame
  rw [ht]; rfl

/-- An operation on the other fields. -/
theorem next {g : State → State} (hg : ∀ (s : State) (d : Nat), g (s.withDraws d) = (g s).withDraws d) :
    IgnoresDraws fun s => .next (g s) := fun s d => congrArg Host.Outcome.next (hg s d)

theorem raise (k : FaultKind) : IgnoresDraws fun s => .next (raise k s) := next fun _ _ => rfl

/-- A check that does not see the count, then a computation that does not. -/
theorem orRaise {α : Type} {e : State → Except FaultKind α} {k : State → α → Result}
    (he : ∀ (s : State) (d : Nat), e (s.withDraws d) = e s) (hk : ∀ x, IgnoresDraws fun s => k s x) :
    IgnoresDraws fun s => orRaise (e s) s (k s) := by
  intro s d
  simp only [he]
  cases e s with
  | ok x => exact hk x s d
  | error f => rfl

/-- A checked operand. -/
theorem withChecked {n : Nat} {k : State → Fin 16 → Result}
    (hk : ∀ i : Fin 16, n = i.val → IgnoresDraws fun s => k s i) :
    IgnoresDraws fun s => Machine.orRaise (checkReg n) s (k s) := by
  rcases checkReg_cases n with ⟨i, hn, hi⟩ | ⟨_, he⟩
  · rw [hi]; exact hk i hn
  · rw [he]; exact raise _

/-- A read of a register other than 3. -/
theorem withRead {i : Fin 16} {k : Word → State → Result} (hi : 3 ≠ i.val)
    (hk : ∀ x, IgnoresDraws (k x)) : IgnoresDraws fun s => withRead i s k := by
  have hne : i ≠ 3 := fun h => hi (congrArg Fin.val h).symm
  have hread : ∀ s, Machine.withRead i s k = k s.regs[i] s := by
    intro s
    simp [withRead_apply, State.operand, afterRead_eq, drawsOf, hne]
  intro s d
  simp only [hread]
  exact hk _ s d

theorem arith (alu : Word → Word → Word → Except FaultKind Word) {a b c : Nat} (imm : Word)
    (h : 3 ∉ [b, c]) : IgnoresDraws (arith alu a b c imm) := by
  obtain ⟨hb, hc⟩ : 3 ≠ b ∧ 3 ≠ c := by simpa using h
  exact withChecked fun _ _ => withChecked fun _ hi => withChecked fun _ hj =>
    withRead (hi ▸ hb) fun _ => withRead (hj ▸ hc) fun _ => orRaise (fun _ _ => rfl) fun _ => next fun _ _ => rfl

theorem execCout {a : Nat} (ha : 3 ≠ a) : IgnoresDraws (execCout a) :=
  withChecked fun _ hi => withRead (hi ▸ ha) fun _ => next fun _ _ => rfl

theorem execIout {a : Nat} (ha : 3 ≠ a) : IgnoresDraws (execIout a) :=
  withChecked fun _ hi => withRead (hi ▸ ha) fun _ => next fun _ _ => rfl

theorem execJump {a : Nat} (off : Word) (ha : 3 ≠ a) : IgnoresDraws (execJump a off) :=
  withChecked fun _ hi => withRead (hi ▸ ha) fun _ => next fun _ _ => rfl

theorem execFork {a b c : Nat} (off : Word) (h : 3 ∉ [a, b, c]) : IgnoresDraws (execFork a b c off) := by
  obtain ⟨ha, hb, hc⟩ : 3 ≠ a ∧ 3 ≠ b ∧ 3 ≠ c := by simpa using h
  refine withChecked fun _ hi => withChecked fun _ hj => withChecked fun _ hk =>
    withRead (hj ▸ hb) fun x => withRead (hk ▸ hc) fun y => ?_
  by_cases hxy : x = y
  · simp only [if_pos hxy]
    exact withRead (hi ▸ ha) fun _ => next fun _ _ => rfl
  · simp only [if_neg hxy]
    exact next fun _ _ => rfl

theorem execLoad {a b : Nat} (off : Word) (hb : 3 ≠ b) : IgnoresDraws (execLoad a b off) :=
  withChecked fun _ _ => withChecked fun _ hj => withRead (hj ▸ hb) fun _ =>
  orRaise (fun _ _ => rfl) fun _ => next fun _ _ => rfl

/-- A store within bounds changes memory alone; one out of bounds takes its fault. -/
theorem orRaise_memWrite (ea : EffAddr) (x : Word) :
    IgnoresDraws fun s => Machine.orRaise (memWrite ea x s) s fun s' => .next (advance s') := by
  intro s d
  have hbounds : inBounds (s.withDraws d) ea = inBounds s ea := rfl
  simp only [memWrite, hbounds]
  split <;> rfl

theorem execPool {a b : Nat} (off : Word) (h : 3 ∉ [a, b]) : IgnoresDraws (execPool a b off) := by
  obtain ⟨ha, hb⟩ : 3 ≠ a ∧ 3 ≠ b := by simpa using h
  exact withChecked fun _ hi => withChecked fun _ hj =>
    withRead (hi ▸ ha) fun _ => withRead (hj ▸ hb) fun _ => orRaise_memWrite _ _

/-- An instruction that reads no register 3 reads no draw. -/
theorem exec {i : Instr} (h : 3 ∉ sources i) : IgnoresDraws (exec i) := by
  cases i with
  | noop => exact next fun _ _ => rfl
  | halt => exact next fun _ _ => rfl
  | cout a => exact execCout (List.ne_of_not_mem_cons h)
  | iout a => exact execIout (List.ne_of_not_mem_cons h)
  | jump a off => exact execJump off (List.ne_of_not_mem_cons h)
  | fork a b c off => exact execFork off h
  | load a b off => exact execLoad off (List.ne_of_not_mem_cons h)
  | pool a b off => exact execPool off h
  | iadd a b c imm => exact arith (fun l r i => .ok (aluAdd l r i)) imm h
  | isub a b c imm => exact arith (fun l r i => .ok (aluSub l r i)) imm h
  | imul a b c imm => exact arith (fun l r i => .ok (aluMul l r i)) imm h
  | idiv a b c imm => exact arith aluDiv imm h
  | errorC => exact raise _
  | errorD => exact raise _
  | errorE => exact raise _
  | errorF => exact raise _

end IgnoresDraws

/-- Settles O42: the meaning at the other count is the meaning with its next state at that count. -/
theorem noDrawWithoutRegisterThree : Obligations.NoDrawWithoutRegisterThree := by
  intro i s t d hsources h
  have hignores := IgnoresDraws.exec hsources
  refine ⟨hignores.draws_eq h, ?_⟩
  calc exec i (s.withDraws d)
      _ = mapNext (State.withDraws d) (exec i s) := hignores s d
      _ = .next (t.withDraws d) := by rw [h]; rfl

end Sys2Proof.Machine
end

/-! ### The invariant: what an instruction can leave in memory and in the status -/

section
namespace Sys2Proof.Machine

/-! Memory (spec/20_memory.md section 2): POOL alone writes it, two bytes inside the segment. -/

section
variable {s t : State}

/-- A 16-bit write lists no address but its two and those listed before. -/
theorem Memory.mem_writeWord {m : Memory} {a : Nat} {v : Word} {c : Host.Cell} (h : c ∈ m.writeWord a v) :
    c.1 = a ∨ c.1 = a + 1 ∨ c ∈ m := by
  rcases Memory.mem_write h with hlow | h
  · exact .inr (.inl hlow)
  · exact (Memory.mem_write h).imp_right .inr

theorem arith_keeps_mem {alu : Word → Word → Word → Except FaultKind Word} {a b c : Nat} {imm : Word}
    (h : arith alu a b c imm s = .next t) : t.mem = s.mem := by
  rcases arith_next h with ⟨_, _, _, _, _, _, _, _, rfl⟩ | ⟨_, _, _, _, _, _, _, _, rfl⟩ | ⟨_, _, _, rfl⟩ <;> simp

theorem execLoad_keeps_mem {a b : Nat} {off : Word} (h : execLoad a b off s = .next t) : t.mem = s.mem := by
  rcases execLoad_next h with ⟨_, _, _, _, _, rfl⟩ | ⟨_, _, _, _, _, rfl⟩ | ⟨_, _, _, rfl⟩ <;> simp

theorem execCout_keeps_mem {a : Nat} (h : execCout a s = .next t) : t.mem = s.mem := by
  rcases execCout_next h with ⟨_, _, rfl⟩ | ⟨_, rfl⟩ <;> simp

theorem execIout_keeps_mem {a : Nat} (h : execIout a s = .next t) : t.mem = s.mem := by
  rcases execIout_next h with ⟨_, _, rfl⟩ | ⟨_, rfl⟩ <;> simp

theorem execJump_keeps_mem {a : Nat} {off : Word} (h : execJump a off s = .next t) : t.mem = s.mem := by
  rcases execJump_next h with ⟨_, _, rfl⟩ | ⟨_, rfl⟩ <;> simp

theorem execFork_keeps_mem {a b c : Nat} {off : Word} (h : execFork a b c off s = .next t) : t.mem = s.mem := by
  rcases execFork_next h with ⟨_, _, _, _, _, _, _, rfl⟩ | ⟨_, _, _, _, _, _, _, rfl⟩ | ⟨_, _, _, rfl⟩ <;> simp

/-- An instruction that is no store keeps memory (R45). -/
theorem exec_keeps_mem {i : Instr} (hstore : isStore i = false) (h : exec i s = .next t) : t.mem = s.mem := by
  cases i with
  | cout a => exact execCout_keeps_mem h
  | iout a => exact execIout_keeps_mem h
  | jump a off => exact execJump_keeps_mem h
  | fork a b c off => exact execFork_keeps_mem h
  | load a b off => exact execLoad_keeps_mem h
  | pool a b off => cases hstore
  | iadd a b c imm => exact arith_keeps_mem (alu := fun l r i => .ok (aluAdd l r i)) h
  | isub a b c imm => exact arith_keeps_mem (alu := fun l r i => .ok (aluSub l r i)) h
  | imul a b c imm => exact arith_keeps_mem (alu := fun l r i => .ok (aluMul l r i)) h
  | idiv a b c imm => exact arith_keeps_mem h
  | noop | halt | errorC | errorD | errorE | errorF => cases h; rfl

/-- POOL keeps memory or writes two bytes that lie inside the segment (R48). -/
theorem execPool_mem {a b : Nat} {off : Word} (h : execPool a b off s = .next t) :
    t.mem = s.mem ∨
    ∃ (ea : EffAddr) (v : Word), ea.toNat ≤ 131070 ∧ ea.toNat + 2 ≤ s.memSize ∧ t.mem = s.mem.writeWord ea.toNat v := by
  rcases execPool_next h with ⟨_, _, _, _, hin, rfl⟩ | ⟨_, _, _, _, _, rfl⟩ | ⟨_, _, _, rfl⟩
  · exact .inr ⟨_, _, basePlusOffset_le _ _, hin, rfl⟩
  · exact .inl (by simp)
  · exact .inl rfl

/-- The two memory clauses of the invariant, for a memory of `size` bytes. -/
def Memory.Inside (size : Nat) (m : Memory) : Prop :=
  m.wf = true ∧ ∀ c ∈ m, c.1 < size ∧ c.1 < 131072

/-- A write whose two bytes lie in the segment and in reach keeps them. -/
theorem Memory.Inside.writeWord {size a : Nat} {m : Memory} (hm : m.Inside size) (v : Word) (hreach : a ≤ 131070)
    (hsize : a + 2 ≤ size) : (m.writeWord a v).Inside size := by
  obtain ⟨hwf, hinside⟩ := hm
  refine ⟨Memory.wf_writeWord a v hwf, fun c hc => ?_⟩
  rcases Memory.mem_writeWord hc with hca | hca | hold
  · omega
  · omega
  · exact hinside c hold

/-- Every instruction keeps the memory clauses of the invariant. -/
theorem exec_keeps_inside {i : Instr} (hm : s.mem.Inside s.memSize) (h : exec i s = .next t) :
    t.mem.Inside s.memSize := by
  cases hstore : isStore i with
  | false => exact exec_keeps_mem hstore h ▸ hm
  | true =>
    cases i with
    | pool a b off =>
      rcases execPool_mem h with heq | ⟨ea, v, hreach, hsize, heq⟩
      · exact heq ▸ hm
      · exact heq ▸ hm.writeWord v hreach hsize
    | _ => cases hstore

end

/-! The status (spec/60_exceptions.md R142, R156). -/

/-- All that a well-formed instruction can leave in the status: what stood there, Halted by HALT, or a fault of its row in
R156's table, with a payload of R142. -/
inductive StatusAfter (i : Instr) (s : State) : Status → Prop where
  | kept {q : Status} (hq : q = s.status) : StatusAfter i s q
  | halted (hi : i = .halt) : StatusAfter i s .halted
  | faulted (k : FaultKind) (hmay : mayRaise i k = true) (hlegal : (Status.faulted k).legal s.memSize) :
      StatusAfter i s (.faulted k)

/-- No operand of a well-formed instruction fails the bank's check. -/
theorem not_ge_of_wellFormed {i : Instr} {n : Nat} (hwf : i.wellFormed = true) (hn : n ∈ i.registries) : ¬ 16 ≤ n :=
  Nat.not_le.mpr (lt_of_wellFormed hwf hn)

/-- The division unit has one fault. -/
theorem aluDiv_error {l r i : Word} {f : FaultKind} (h : aluDiv l r i = .error f) : f = .divisionByZero := by
  unfold aluDiv at h
  split at h
  · cases h; rfl
  · cases h

/-- The payload of a failed access is an address whose second byte lies outside the segment (R148). -/
theorem legal_outOfBounds {size : Nat} {base off : Word} (h : size < (basePlusOffset base off).toNat + 2) :
    (Status.faulted (.outOfBoundsMemoryAccess (basePlusOffset base off))).legal size :=
  ⟨basePlusOffset_le base off, h⟩

namespace StatusAfter

variable {i : Instr} {s t : State}

/-- From a legal status each of the three is legal. -/
theorem legal {q : Status} (hs : s.status.legal s.memSize) (h : StatusAfter i s q) : q.legal s.memSize := by
  cases h with
  | kept hq => exact hq ▸ hs
  | halted _ => exact trivial
  | faulted k _ hlegal => exact hlegal

/-- An arithmetic instruction, by the faults of its unit. -/
theorem of_arith {alu : Word → Word → Word → Except FaultKind Word} {a b c : Nat} {imm : Word}
    (hwf : i.wellFormed = true) (hregs : i.registries = [a, b, c])
    (halu : ∀ (l r : Word) (f : FaultKind), alu l r imm = .error f → StatusAfter i s (.faulted f))
    (h : arith alu a b c imm s = .next t) : StatusAfter i s t.status := by
  rcases arith_next h with ⟨_, _, _, _, _, _, _, _, rfl⟩ | ⟨_, _, _, f, _, _, _, hf, rfl⟩ | ⟨n, hge, hn, rfl⟩
  · exact .kept (by simp)
  · exact halu _ _ f hf
  · exact absurd hge (not_ge_of_wellFormed hwf (by simpa [hregs] using hn))

theorem of_execCout {a : Nat} (hwf : (Instr.cout a).wellFormed = true) (h : execCout a s = .next t) :
    StatusAfter (.cout a) s t.status := by
  rcases execCout_next h with ⟨_, _, rfl⟩ | ⟨hge, rfl⟩
  · exact .kept (by simp)
  · exact absurd hge (not_ge_of_wellFormed hwf (by simp [Instr.registries]))

theorem of_execIout {a : Nat} (hwf : (Instr.iout a).wellFormed = true) (h : execIout a s = .next t) :
    StatusAfter (.iout a) s t.status := by
  rcases execIout_next h with ⟨_, _, rfl⟩ | ⟨hge, rfl⟩
  · exact .kept (by simp)
  · exact absurd hge (not_ge_of_wellFormed hwf (by simp [Instr.registries]))

theorem of_execJump {a : Nat} {off : Word} (hwf : (Instr.jump a off).wellFormed = true)
    (h : execJump a off s = .next t) : StatusAfter (.jump a off) s t.status := by
  rcases execJump_next h with ⟨_, _, rfl⟩ | ⟨hge, rfl⟩
  · exact .kept (by simp)
  · exact absurd hge (not_ge_of_wellFormed hwf (by simp [Instr.registries]))

theorem of_execFork {a b c : Nat} {off : Word} (hwf : (Instr.fork a b c off).wellFormed = true)
    (h : execFork a b c off s = .next t) : StatusAfter (.fork a b c off) s t.status := by
  rcases execFork_next h with ⟨_, _, _, _, _, _, _, rfl⟩ | ⟨_, _, _, _, _, _, _, rfl⟩ | ⟨n, hge, hn, rfl⟩
  · exact .kept (by simp)
  · exact .kept (by simp)
  · exact absurd hge (not_ge_of_wellFormed hwf (by simpa [Instr.registries] using hn))

theorem of_execLoad {a b : Nat} {off : Word} (hwf : (Instr.load a b off).wellFormed = true)
    (h : execLoad a b off s = .next t) : StatusAfter (.load a b off) s t.status := by
  rcases execLoad_next h with ⟨_, _, _, _, _, rfl⟩ | ⟨_, _, _, _, hout, rfl⟩ | ⟨n, hge, hn, rfl⟩
  · exact .kept (by simp)
  · exact .faulted _ rfl (legal_outOfBounds hout)
  · exact absurd hge (not_ge_of_wellFormed hwf (by simpa [Instr.registries] using hn))

theorem of_execPool {a b : Nat} {off : Word} (hwf : (Instr.pool a b off).wellFormed = true)
    (h : execPool a b off s = .next t) : StatusAfter (.pool a b off) s t.status := by
  rcases execPool_next h with ⟨_, _, _, _, _, rfl⟩ | ⟨_, _, _, _, hout, rfl⟩ | ⟨n, hge, hn, rfl⟩
  · exact .kept (by simp)
  · exact .faulted _ rfl (legal_outOfBounds hout)
  · exact absurd hge (not_ge_of_wellFormed hwf (by simpa [Instr.registries] using hn))

end StatusAfter

/-- The status a well-formed instruction leaves is one of the three. -/
theorem exec_statusAfter {i : Instr} {s t : State} (hwf : i.wellFormed = true) (h : exec i s = .next t) :
    StatusAfter i s t.status := by
  cases i with
  | noop => cases h; exact .kept rfl
  | halt => cases h; exact .halted rfl
  | cout a => exact .of_execCout hwf h
  | iout a => exact .of_execIout hwf h
  | jump a off => exact .of_execJump hwf h
  | fork a b c off => exact .of_execFork hwf h
  | load a b off => exact .of_execLoad hwf h
  | pool a b off => exact .of_execPool hwf h
  | iadd a b c imm => exact .of_arith (alu := fun l r i => .ok (aluAdd l r i)) hwf rfl nofun h
  | isub a b c imm => exact .of_arith (alu := fun l r i => .ok (aluSub l r i)) hwf rfl nofun h
  | imul a b c imm => exact .of_arith (alu := fun l r i => .ok (aluMul l r i)) hwf rfl nofun h
  | idiv a b c imm =>
    refine .of_arith hwf rfl (fun l r f hf => ?_) h
    rw [aluDiv_error hf]
    exact .faulted _ rfl trivial
  | errorC => cases h; exact .faulted _ rfl ⟨by decide, by decide⟩
  | errorD => cases h; exact .faulted _ rfl ⟨by decide, by decide⟩
  | errorE => cases h; exact .faulted _ rfl ⟨by decide, by decide⟩
  | errorF => cases h; exact .faulted _ rfl ⟨by decide, by decide⟩

/-! The pc and the whole invariant. -/

namespace State.Inv

variable {s t : State}

theorem inside (hinv : s.Inv) : s.mem.Inside s.memSize := ⟨hinv.mem_wf, hinv.mem_inside⟩

/-- Spending a store event changes nothing that the invariant speaks of. -/
theorem afterFetch (hinv : s.Inv) : (afterFetch s).Inv :=
  ⟨hinv.mem_wf, hinv.mem_inside, hinv.prog_bound, hinv.pc_bound, hinv.status_legal⟩

/-- A fault with a payload of R142 keeps the invariant. -/
theorem raise {k : FaultKind} (hinv : s.Inv) (hlegal : (Status.faulted k).legal s.memSize) : (raise k s).Inv :=
  ⟨hinv.mem_wf, hinv.mem_inside, hinv.prog_bound, hinv.pc_bound, hlegal⟩

/-- The pc stays, moves to the next word of the program or its end, or goes to a target of at most 131070 (R28). -/
theorem exec_pc_le {i : Instr} {w : InstrWord} (hinv : s.Inv) (hword : wordAt s.prog s.pc.toNat = some w)
    (h : exec i s = .next t) : t.pc.toNat ≤ max s.progWords 131070 := by
  cases exec_shape h with
  | faulted k d => exact hinv.pc_bound
  | halted _ => exact hinv.pc_bound
  | advanced _ hpc =>
    have hlt := pc_lt_progWords hword
    have hsucc := hinv.pc_succ_toNat hword
    rw [hpc]
    omega
  | redirected target _ hpc hle _ _ => omega

/-- A well-formed instruction, run where the program has a word, keeps the invariant. -/
theorem exec {i : Instr} {w : InstrWord} (hinv : s.Inv) (hwf : i.wellFormed = true)
    (hword : wordAt s.prog s.pc.toNat = some w) (h : exec i s = .next t) : t.Inv := by
  obtain ⟨hprog, hsize⟩ := exec_keeps_parameters h
  have hwords : t.progWords = s.progWords := congrArg (fun bs => bs.length / 4) hprog
  obtain ⟨hmem, hinside⟩ := exec_keeps_inside hinv.inside h
  exact {
    mem_wf := hmem
    mem_inside := hsize ▸ hinside
    prog_bound := hwords ▸ hinv.prog_bound
    pc_bound := hwords ▸ hinv.exec_pc_le hword h
    status_legal := hsize ▸ (exec_statusAfter hwf h).legal hinv.status_legal }

end State.Inv

/-- Settles O55: the fetch keeps the invariant, so do its two faults, and a decoded word is well formed. -/
theorem everyStepKeepsInvariant : Obligations.EveryStepKeepsInvariant := by
  intro s t hinv h
  obtain ⟨_, ⟨_, rfl⟩ | ⟨_, rfl⟩ | ⟨w, hfetch, hexec⟩⟩ := step_next h
  · exact hinv.afterFetch.raise trivial
  · exact hinv.afterFetch.raise trivial
  · exact hinv.afterFetch.exec (decodedRegistersAreInRange w) (wordAt_of_ifetch (s := s) hfetch) hexec

end Sys2Proof.Machine
end

/-! ### The step: the answer of the fetch decides it, and while the run is `Running` a next state exists -/

section
namespace Sys2Proof.Machine

section
variable {s : State}

/-- The next fetch fails exactly when its event is listed as a failure (R147). -/
theorem storeFails_iff (s : State) : storeFails s = true ↔ s.storeEvents.head? = some true := by
  unfold storeFails
  cases s.storeEvents <;> simp

/-- A failed read comes before the end of the store (R149). -/
theorem ifetch_of_fails (h : s.storeEvents.head? = some true) : ifetch s = .err :=
  if_pos ((storeFails_iff s).mpr h)

/-- Without a failure the fetch answers what the store holds at the pc. -/
theorem ifetch_of_not_fails (h : s.storeEvents.head? ≠ some true) :
    ifetch s = (wordAt s.prog s.pc.toNat).elim .endOfStore .word := by
  rw [ifetch, if_neg (mt (storeFails_iff s).mp h)]
  cases wordAt s.prog s.pc.toNat <;> rfl

theorem step_of_err (hrun : s.status = .running) (h : ifetch s = .err) :
    step s = .next (raise .backingStoreError (afterFetch s)) := by
  simp [step, hrun, h]

theorem step_of_endOfStore (hrun : s.status = .running) (h : ifetch s = .endOfStore) :
    step s = .next (raise .unexpectedEndOfFile (afterFetch s)) := by
  simp [step, hrun, h]

theorem step_of_word {w : InstrWord} (hrun : s.status = .running) (h : ifetch s = .word w) :
    step s = exec (decode w) (afterFetch s) := by
  simp [step, hrun, h]

/-- With a word at the pc and no failure the step runs it. -/
theorem step_of_wordAt {w : InstrWord} (hrun : s.status = .running) (hevent : s.storeEvents.head? ≠ some true)
    (hword : wordAt s.prog s.pc.toNat = some w) : step s = exec (decode w) (afterFetch s) :=
  step_of_word hrun (by rw [ifetch_of_not_fails hevent, hword]; rfl)

/-- At and past the length of the program there is no word (R42). -/
theorem wordAt_of_progWords_le (h : s.progWords ≤ s.pc.toNat) : wordAt s.prog s.pc.toNat = none := by
  rw [← Option.not_isSome_iff_eq_none, wordAt_isSome, decide_eq_true_iff]
  exact Nat.not_lt.mpr h

/-- Below the length of the program there is a word. -/
theorem wordAt_of_lt_progWords (h : s.pc.toNat < s.progWords) : ∃ w, wordAt s.prog s.pc.toNat = some w := by
  rw [← Option.isSome_iff_exists, wordAt_isSome]
  exact decide_eq_true h

/-- Bytes that decode begin with a word, which decodes alike. -/
theorem takeWord_of_decodeBytes {bs rest : List Byte} {i : Instr} (h : decodeBytes bs = .ok (i, rest)) :
    ∃ w, takeWord bs = some (w, rest) ∧ decode w = i := by
  unfold decodeBytes at h
  split at h
  · next w _ hw =>
    cases h
    exact ⟨w, hw, rfl⟩
  · cases h

end

/-- Settles O10: the three answers of the fetch, each by its equation. -/
theorem fetchFaultsOrRuns : Obligations.FetchFaultsOrRuns := by
  intro s hrun
  refine ⟨fun hfails => ?_, fun hevent hend => ?_, fun hevent hlt => ?_⟩
  · exact step_of_err hrun (ifetch_of_fails hfails)
  · refine step_of_endOfStore hrun ?_
    rw [ifetch_of_not_fails hevent, wordAt_of_progWords_le hend]
    rfl
  · obtain ⟨w, hword⟩ := wordAt_of_lt_progWords hlt
    exact ⟨w, hword, step_of_wordAt hrun hevent hword⟩

/-- Settles O9: the bytes that decode are the word at the pc. -/
theorem stepRunsDecodedInstruction : Obligations.StepRunsDecodedInstruction := by
  intro s i rest hrun hevent hbytes
  obtain ⟨w, htake, rfl⟩ := takeWord_of_decodeBytes hbytes
  have hword : wordAt s.prog s.pc.toNat = some w := by rw [wordAt, htake]; rfl
  exact ⟨decodedRegistersAreInRange w, step_of_wordAt hrun hevent hword⟩

/-- Settles O11: `step` looks at the status first. -/
theorem terminalStatesHaveNoStep : Obligations.TerminalStatesHaveNoStep := by
  intro s
  constructor
  · intro hhalted
    simp [step, hhalted]
  · intro k hfaulted
    simp [step, hfaulted]

/-! No instruction stops the model: each building block of a meaning answers a next state if what follows it does. -/

/-- The result is a next state. -/
def Continues (r : Result) : Prop := ∃ t, r = .next t

namespace Continues

theorem next (t : State) : Continues (.next t) := ⟨t, rfl⟩

/-- A fault is a next state as well. -/
theorem orRaise {α : Type} {e : Except FaultKind α} {s : State} {k : α → Result} (hk : ∀ x, Continues (k x)) :
    Continues (orRaise e s k) := by
  cases e with
  | ok x => exact hk x
  | error f => exact next _

theorem withRead {i : Fin 16} {s : State} {k : Word → State → Result} (hk : ∀ x s', Continues (k x s')) :
    Continues (withRead i s k) := hk _ _

theorem arith (alu : Word → Word → Word → Except FaultKind Word) (a b c : Nat) (imm : Word) (s : State) :
    Continues (arith alu a b c imm s) :=
  orRaise fun _ => orRaise fun _ => orRaise fun _ => withRead fun _ _ => withRead fun _ _ => orRaise fun _ => next _

theorem execFork (a b c : Nat) (off : Word) (s : State) : Continues (execFork a b c off s) := by
  refine orRaise fun _ => orRaise fun _ => orRaise fun _ => withRead fun x _ => withRead fun y _ => ?_
  split
  · exact withRead fun _ _ => next _
  · exact next _

/-- Every instruction, well formed or not, answers a next state from every state. -/
theorem exec (i : Instr) (s : State) : Continues (exec i s) := by
  cases i with
  | noop => exact next _
  | halt => exact next _
  | cout a => exact orRaise fun _ => withRead fun _ _ => next _
  | iout a => exact orRaise fun _ => withRead fun _ _ => next _
  | jump a off => exact orRaise fun _ => withRead fun _ _ => next _
  | fork a b c off => exact execFork a b c off s
  | load a b off => exact orRaise fun _ => orRaise fun _ => withRead fun _ _ => orRaise fun _ => next _
  | pool a b off =>
    exact orRaise fun _ => orRaise fun _ => withRead fun _ _ => withRead fun _ _ => orRaise fun _ => next _
  | iadd a b c imm => exact arith (fun l r i => .ok (aluAdd l r i)) a b c imm s
  | isub a b c imm => exact arith (fun l r i => .ok (aluSub l r i)) a b c imm s
  | imul a b c imm => exact arith (fun l r i => .ok (aluMul l r i)) a b c imm s
  | idiv a b c imm => exact arith aluDiv a b c imm s
  | errorC => exact next _
  | errorD => exact next _
  | errorE => exact next _
  | errorF => exact next _

/-- A running state has a step, whatever the fetch answers. -/
theorem step {s : State} (hrun : s.status = .running) : Continues (step s) := by
  cases hfetch : ifetch s with
  | err => exact ⟨_, step_of_err hrun hfetch⟩
  | endOfStore => exact ⟨_, step_of_endOfStore hrun hfetch⟩
  | word w =>
    rw [step_of_word hrun hfetch]
    exact exec (decode w) (afterFetch s)

end Continues

/-- `run()` has not returned exactly while the run is `Running` (R155). -/
theorem hostResult_eq_none_iff (s : State) : s.hostResult = none ↔ s.status = .running := by
  unfold State.hostResult
  cases s.status <;> simp

/-- Settles O12: a step starts from Running, and every running state continues. -/
theorem stepExistsExactlyWhileRunning : Obligations.StepExistsExactlyWhileRunning := by
  intro s
  refine ⟨⟨?_, Continues.step⟩, hostResult_eq_none_iff s⟩
  rintro ⟨t, h⟩
  obtain ⟨hrun, _⟩ := step_next h
  exact hrun

/-! Which instructions go on to the next word. -/

/-- A non-transfer that leaves the run `Running` has the shape of an advance (R83). -/
theorem exec_pc_of_running {i : Instr} {s t : State} (htransfer : isTransfer i = false) (h : exec i s = .next t)
    (hrun : t.status = .running) : t.pc = s.pc + 1 := by
  cases exec_shape h with
  | faulted k d => cases hrun
  | halted _ => cases hrun
  | advanced _ hpc => exact hpc
  | redirected _ _ _ _ hyes _ => exact absurd hyes (by simp [htransfer])

/-- A FORK on registers of the bank advances when its compare fails (R102). -/
theorem fork_pc_of_ne {a b c : Fin 16} {off : Word} {s t : State} (hne : s.operand b 0 ≠ s.operand c (drawsOf b))
    (h : exec (.fork a b c off) s = .next t) : t.pc = s.pc + 1 := by
  have hfork : execFork a b c off s = .next t := h
  rcases execFork_next hfork with ⟨_, _, _, _, hb, hc, heq, _⟩ | ⟨_, _, _, _, _, _, _, rfl⟩ | ⟨n, hge, hn, _⟩
  · rw [← Fin.ext hb, ← Fin.ext hc] at heq
    exact absurd heq hne
  · simp
  · omega

/-- Settles O22: the shape of a non-transfer, and FORK's untaken branch. -/
theorem sequentialInstructionsAdvance : Obligations.SequentialInstructionsAdvance :=
  ⟨fun _ _ _ => exec_pc_of_running, fun _ _ _ _ _ _ => fork_pc_of_ne⟩

/-- Settles O14: the decoder's first row, the packed word of opcode 0, and NOOP's meaning. -/
theorem noopAdvances : Obligations.NoopAdvances := by
  refine ⟨fun w hop => ?_, by decide, fun _ => rfl⟩
  simp [decode, hop]

/-- Settles O16: each illegal opcode takes the fault of its own value. -/
theorem illegalOpcodesFault : Obligations.IllegalOpcodesFault :=
  fun _ => ⟨rfl, rfl, rfl, rfl⟩

end Sys2Proof.Machine
end

/-! ### The two output instructions on a register of the bank: the bytes appended, and what else changes -/

section
namespace Sys2Proof.Machine

section
variable (a : Fin 16) (s : State)

/-- One read, one output, one advance: the output, the pc and the draw counter change, and nothing else. -/
theorem advance_emit_afterRead (bs : List Byte) :
    advance (emit bs (afterRead a s)) =
      { s with out := s.out ++ bs, pc := s.pc + 1, draws := s.draws + drawsOf a } := by
  rw [afterRead_eq]
  rfl

/-- COUT on a register of the bank: the read succeeds, its low byte goes out, the pc advances (R90). -/
theorem execCout_apply :
    execCout a s = .next (advance (emit [(s.operand a 0).extractLsb' 0 8] (afterRead a s))) := by
  simp only [execCout, checkReg_fin, orRaise_ok, withRead_apply]

/-- IOUT on a register of the bank: the read succeeds, its signed decimal line goes out, the pc advances (R91). -/
theorem execIout_apply :
    execIout a s = .next (advance (emit (dec (sval (s.operand a 0)) ++ [lineFeed]) (afterRead a s))) := by
  simp only [execIout, checkReg_fin, orRaise_ok, withRead_apply]

end

/-- The low byte of a pattern is its number cut to eight bits. -/
theorem extractLsb'_low_eq_ofNat (v : Word) : v.extractLsb' 0 8 = BitVec.ofNat 8 v.toNat := by
  rw [BitVec.extractLsb', Nat.shiftRight_zero]

/-- Opcode 2 decodes to COUT of the first field (R65). -/
theorem decode_of_opField_eq_two {w : InstrWord} (h : opField w = 2) : decode w = .cout (aField w) := by
  simp [decode, h]

/-- COUT's canonical word for each of the sixteen registers (R64, R70). -/
theorem encode_cout : ∀ a : Fin 16, encode (.cout a) = 0x20000000 + BitVec.ofNat 32 (a * 2 ^ 24) := by
  decide

/-- Settles O17: the decoder's third row, the packed word of opcode 2, and COUT's meaning with its byte as a number. -/
theorem coutEmitsLowByte : Obligations.CoutEmitsLowByte := by
  refine ⟨fun _ => decode_of_opField_eq_two, fun a s => ⟨encode_cout a, (execCout_apply a s).trans ?_⟩⟩
  rw [extractLsb'_low_eq_ofNat, advance_emit_afterRead]

/-- Settles O18: IOUT's meaning with the model's signed view as two's complement. -/
theorem ioutEmitsDecimalLine : Obligations.IoutEmitsDecimalLine := by
  refine fun a s => (execIout_apply a s).trans ?_
  rw [sval_eq_toInt, advance_emit_afterRead, ← List.append_assoc, lineFeed]

end Sys2Proof.Machine
end

/-! ### The arithmetic unit and the register writers: add, subtract and multiply are those of the 16-bit ring, the one fault
of the unit is a zero divisor, and nothing but the destination, the pc and the draws changes -/

section
namespace Sys2Proof.Machine

/-! Reduction to 16 bits keeps sums, differences and products, and undoes either view of a pattern (R127). -/

section
variable (m n : Int) (v l r i : Word)

theorem wrap16_add : wrap16 (m + n) = wrap16 m + wrap16 n := BitVec.ofInt_add m n

theorem wrap16_sub : wrap16 (m - n) = wrap16 m - wrap16 n := by
  rw [Int.sub_eq_add_neg, wrap16_add, BitVec.sub_eq_add_neg, wrap16, wrap16, wrap16, BitVec.ofInt_neg]

theorem wrap16_mul : wrap16 (m * n) = wrap16 m * wrap16 n := BitVec.ofInt_mul m n

/-- The signed view reduces back to its pattern. -/
theorem wrap16_sval : wrap16 (sval v) = v := by
  rw [sval_eq_toInt]
  exact BitVec.ofInt_toInt

/-- The unsigned view reduces back to its pattern. -/
theorem wrap16_toNat_view : wrap16 v.toNat = v := by
  rw [wrap16, BitVec.ofInt_natCast, BitVec.ofNat_toNat, BitVec.setWidth_eq]

theorem aluAdd_eq : aluAdd l r i = l + r + i := by
  simp only [aluAdd, wrap16_add, wrap16_sval]

theorem aluSub_eq : aluSub l r i = l - r - i := by
  simp only [aluSub, wrap16_sub, wrap16_sval]

theorem aluMul_eq : aluMul l r i = l * r * i := by
  simp only [aluMul, wrap16_mul, wrap16_sval]

end

/-- Settles O37: each unit is the operation of the 16-bit ring, whichever view its operands are taken in. -/
theorem signednessIsIrrelevantToWrap : Obligations.SignednessIsIrrelevantToWrap := by
  intro l r i
  simp only [aluAdd_eq, aluSub_eq, aluMul_eq]
  refine ⟨?_, ?_, ?_, ?_, ?_, ?_⟩
  · simp only [BitVec.ofNat_add, BitVec.ofNat_toNat, BitVec.setWidth_eq]
  · change l - r - i = wrap16 _
    simp only [wrap16_sub, wrap16_toNat_view]
  · simp only [BitVec.ofNat_mul, BitVec.ofNat_toNat, BitVec.setWidth_eq]
  · simp only [add_zero]
  · simp only [sub_zero]
  · simp only [mul_one]

/-! The arithmetic instructions on registers of the bank (R120): two reads, then the result written or the fault taken. -/

section
variable {alu : Word → Word → Word → Except FaultKind Word} {a b c : Fin 16} {imm : Word} {s : State}

theorem arith_of_ok {v : Word} (h : alu (s.operand b 0) (s.operand c (drawsOf b)) imm = .ok v) :
    arith alu a b c imm s =
      .next { s with regs := s.regs.set a v, pc := s.pc + 1, draws := s.draws + drawsOf b + drawsOf c } := by
  rw [arith_apply, h, orRaise_ok, afterRead_eq, afterRead_eq]
  rfl

theorem arith_of_error {f : FaultKind} (h : alu (s.operand b 0) (s.operand c (drawsOf b)) imm = .error f) :
    arith alu a b c imm s = .next { s with status := .faulted f, draws := s.draws + drawsOf b + drawsOf c } := by
  rw [arith_apply, h, orRaise_error, afterRead_eq, afterRead_eq]
  rfl

end

section
variable {w : InstrWord}

/-- Opcode 8 decodes to IADD of its fields (R65). -/
theorem decode_of_opField_eq_eight (h : opField w = 8) :
    decode w = .iadd (aField w) (bField w) (cField w) (iField w) := by
  simp [decode, h]

/-- Opcode 9 decodes to ISUB of its fields (R65). -/
theorem decode_of_opField_eq_nine (h : opField w = 9) :
    decode w = .isub (aField w) (bField w) (cField w) (iField w) := by
  simp [decode, h]

/-- Opcode 10 decodes to IMUL of its fields (R65). -/
theorem decode_of_opField_eq_ten (h : opField w = 10) :
    decode w = .imul (aField w) (bField w) (cField w) (iField w) := by
  simp [decode, h]

end

/-- Settles O31: the decoder's ninth row, and IADD's meaning with its unit as the ring's sum. -/
theorem iaddWritesSum : Obligations.IaddWritesSum := by
  refine ⟨fun _ => decode_of_opField_eq_eight, fun a b c imm s => ?_⟩
  rw [← aluAdd_eq]
  exact arith_of_ok (alu := fun l r i => .ok (aluAdd l r i)) rfl

/-- Settles O32: the decoder's tenth row, and ISUB's meaning with its unit as the ring's difference. -/
theorem isubWritesDifference : Obligations.IsubWritesDifference := by
  refine ⟨fun _ => decode_of_opField_eq_nine, fun a b c imm s => ?_⟩
  rw [← aluSub_eq]
  exact arith_of_ok (alu := fun l r i => .ok (aluSub l r i)) rfl

/-- Settles O33: the decoder's eleventh row, and IMUL's meaning with its unit as the ring's product. -/
theorem imulWritesProduct : Obligations.ImulWritesProduct := by
  refine ⟨fun _ => decode_of_opField_eq_ten, fun a b c imm s => ?_⟩
  rw [← aluMul_eq]
  exact arith_of_ok (alu := fun l r i => .ok (aluMul l r i)) rfl

/-! A bad operand comes before everything else an instruction does (R149), so a fault of any other kind is one of R156's
table. -/

/-- The first index that the bank refuses. -/
def firstBad (ns : List Nat) : Option Nat := ns.find? fun n => decide (16 ≤ n)

theorem badRegistry_eq_firstBad (i : Instr) : i.badRegistry = firstBad i.registries := rfl

section
variable {n : Nat} {s : State}

/-- One checked operand of a list that holds a bad one: it is the bad one, or what follows the check meets it. -/
theorem withChecked_of_firstBad {a : Nat} {rest : List Nat} {k : Fin 16 → Result}
    (hbad : firstBad (a :: rest) = some n)
    (hk : ∀ i, firstBad rest = some n → k i = .next (raise (.invalidRegistry n) s)) :
    orRaise (checkReg a) s k = .next (raise (.invalidRegistry n) s) := by
  rcases checkReg_cases a with ⟨i, rfl, hi⟩ | ⟨hge, he⟩
  · rw [hi, orRaise_ok]
    exact hk i (by simpa [firstBad, Nat.not_le.mpr i.isLt] using hbad)
  · have hn : a = n := by simpa [firstBad, hge] using hbad
    rw [he, orRaise_error, hn]

theorem arith_of_firstBad (alu : Word → Word → Word → Except FaultKind Word) {a b c : Nat} (imm : Word)
    (hbad : firstBad [a, b, c] = some n) :
    arith alu a b c imm s = .next (raise (.invalidRegistry n) s) :=
  withChecked_of_firstBad hbad fun _ hb => withChecked_of_firstBad hb fun _ hc => withChecked_of_firstBad hc nofun

/-- An instruction with a bad operand takes the fault of the first one and does nothing else. -/
theorem exec_of_badRegistry {i : Instr} (hbad : i.badRegistry = some n) :
    exec i s = .next (raise (.invalidRegistry n) s) := by
  rw [badRegistry_eq_firstBad] at hbad
  cases i with
  | noop | halt | errorC | errorD | errorE | errorF => cases hbad
  | cout a => exact withChecked_of_firstBad hbad nofun
  | iout a => exact withChecked_of_firstBad hbad nofun
  | jump a off => exact withChecked_of_firstBad hbad nofun
  | fork a b c off =>
    exact withChecked_of_firstBad hbad fun _ hb => withChecked_of_firstBad hb fun _ hc => withChecked_of_firstBad hc nofun
  | load a b off => exact withChecked_of_firstBad hbad fun _ hb => withChecked_of_firstBad hb nofun
  | pool a b off => exact withChecked_of_firstBad hbad fun _ hb => withChecked_of_firstBad hb nofun
  | iadd a b c imm => exact arith_of_firstBad (fun l r i => .ok (aluAdd l r i)) imm hbad
  | isub a b c imm => exact arith_of_firstBad (fun l r i => .ok (aluSub l r i)) imm hbad
  | imul a b c imm => exact arith_of_firstBad (fun l r i => .ok (aluMul l r i)) imm hbad
  | idiv a b c imm => exact arith_of_firstBad aluDiv imm hbad

/-- An ill-formed instruction has a first bad operand. -/
theorem exists_badRegistry {i : Instr} (hwf : i.wellFormed = false) : ∃ n, i.badRegistry = some n := by
  obtain ⟨n, hn, hge⟩ := List.all_eq_false.mp hwf
  refine Option.isSome_iff_exists.mp (List.find?_isSome.mpr ⟨n, hn, ?_⟩)
  simpa using hge

/-- A fault that an instruction takes, well formed or not, is a bad operand's or one of R156's table. -/
theorem exec_faulted {i : Instr} {t : State} {k : FaultKind} (hrun : s.status = .running) (h : exec i s = .next t)
    (hk : t.status = .faulted k) : (∃ n, k = .invalidRegistry n) ∨ mayRaise i k = true := by
  cases hwf : i.wellFormed with
  | false =>
    obtain ⟨n, hn⟩ := exists_badRegistry hwf
    rw [exec_of_badRegistry hn] at h
    cases h
    cases hk
    exact .inl ⟨n, rfl⟩
  | true =>
    have hafter := exec_statusAfter hwf h
    rw [hk] at hafter
    cases hafter with
    | kept hq => rw [hrun] at hq; cases hq
    | faulted _ hmay _ => exact .inr hmay

end

/-- The division unit tests both divisors before anything else (R125). -/
theorem aluDiv_of_zero {l r i : Word} (h : r = 0 ∨ i = 0) : aluDiv l r i = .error .divisionByZero := if_pos h

/-- In R156's table IDIV alone has DivisionByZero. -/
theorem eq_idiv_of_mayRaise {i : Instr} (h : mayRaise i .divisionByZero = true) : ∃ a b c imm, i = .idiv a b c imm := by
  cases i with
  | idiv a b c imm => exact ⟨a, b, c, imm, rfl⟩
  | _ => cases h

/-- Settles O35: the unit's fault on a zero divisor, and the row of R156's table that has it. -/
theorem idivByZeroFaults : Obligations.IdivByZeroFaults := by
  refine ⟨fun a b c imm s hzero => arith_of_error (aluDiv_of_zero hzero), fun i s t hrun h hdiv => ?_⟩
  rcases exec_faulted hrun h hdiv with ⟨n, hn⟩ | hmay
  · cases hn
  · exact eq_idiv_of_mayRaise hmay

/-! The frame of the five register writers (R129). -/

/-- The frame of an instruction that writes register `a`, as `RegisterWritersFrame` states it. -/
def RegisterWriterFrame (a : Nat) (s t : State) : Prop :=
  (∀ n : Fin 16, n.val ≠ a → t.regs[n] = s.regs[n]) ∧ (∀ x, t.byteAt x = s.byteAt x) ∧
  t.out = s.out ∧ t.memSize = s.memSize ∧ t.prog = s.prog ∧ t.storeEvents = s.storeEvents ∧
  (t.status = s.status ∨ (∃ k, t.status = .faulted k) ∧ t.regs = s.regs ∧ t.pc = s.pc)

namespace RegisterWriterFrame

variable {a : Nat} {s t : State}

/-- The good end: the destination written, the pc advanced, some draws spent. -/
theorem written (i : Fin 16) (v : Word) (d : Nat) :
    RegisterWriterFrame i s (advance (writeReg i v { s with draws := d })) :=
  ⟨fun n hne => Vector.getElem_set_ne i.isLt n.isLt (Ne.symm hne), fun _ => rfl, rfl, rfl, rfl, rfl, .inl rfl⟩

/-- A fault with some draws spent. -/
theorem faulted (k : FaultKind) (d : Nat) : RegisterWriterFrame a s (raise k { s with draws := d }) :=
  ⟨fun _ _ => rfl, fun _ => rfl, rfl, rfl, rfl, rfl, .inr ⟨⟨k, rfl⟩, rfl, rfl⟩⟩

theorem of_arith {alu : Word → Word → Word → Except FaultKind Word} {b c : Nat} {imm : Word}
    (h : arith alu a b c imm s = .next t) : RegisterWriterFrame a s t := by
  rcases arith_next h with ⟨i, j, k, v, rfl, _, _, _, rfl⟩ | ⟨_, j, k, f, _, _, _, _, rfl⟩ | ⟨n, _, _, rfl⟩
  · simpa only [afterRead_eq] using written i v _
  · simpa only [afterRead_eq] using faulted f _
  · exact faulted _ s.draws

theorem of_execLoad {b : Nat} {off : Word} (h : execLoad a b off s = .next t) : RegisterWriterFrame a s t := by
  rcases execLoad_next h with ⟨i, j, rfl, _, _, rfl⟩ | ⟨_, j, _, _, _, rfl⟩ | ⟨n, _, _, rfl⟩
  · rw [afterRead_eq]
    exact written i _ _
  · rw [afterRead_eq]
    exact faulted _ _
  · exact faulted _ s.draws

end RegisterWriterFrame

/-- Settles O43: LOAD's frame and that of the shared arithmetic shape. -/
theorem registerWritersFrame : Obligations.RegisterWritersFrame := by
  intro i a s t hdest h
  change RegisterWriterFrame a s t
  cases i with
  | load a b off => cases hdest; exact .of_execLoad h
  | iadd a b c imm => cases hdest; exact .of_arith (alu := fun l r i => .ok (aluAdd l r i)) h
  | isub a b c imm => cases hdest; exact .of_arith (alu := fun l r i => .ok (aluSub l r i)) h
  | imul a b c imm => cases hdest; exact .of_arith (alu := fun l r i => .ok (aluMul l r i)) h
  | idiv a b c imm => cases hdest; exact .of_arith h
  | _ => cases hdest

end Sys2Proof.Machine
end

/-! ### The three statements on faults: which operand a bad index is reported for, precision, and R156's table -/

section
namespace Sys2Proof.Machine

variable {i : Instr} {s t : State} {k : FaultKind} {n : Nat}

/-- The bad operand that is reported is one the instruction names, and lies outside the bank. -/
theorem badRegistry_spec (hbad : i.badRegistry = some n) : n ∈ i.registries ∧ 16 ≤ n :=
  ⟨List.mem_of_find?_eq_some hbad, of_decide_eq_true (List.find?_some (p := fun n => decide (16 ≤ n)) hbad)⟩

/-- Well-formedness fails exactly at an instruction with a first bad operand. -/
theorem wellFormed_eq_false_iff : i.wellFormed = false ↔ ∃ n, i.badRegistry = some n := by
  refine ⟨exists_badRegistry, ?_⟩
  rintro ⟨n, hbad⟩
  obtain ⟨hn, hge⟩ := badRegistry_spec hbad
  exact Bool.eq_false_iff.mpr fun hwf => not_ge_of_wellFormed hwf hn hge

/-- Settles O39: the first bad operand lies outside the bank, and its check fails before anything else is done. -/
theorem invalidRegistryOperandFaults : Obligations.InvalidRegistryOperandFaults := by
  intro i s
  refine ⟨wellFormed_eq_false_iff, fun n hbad => ?_⟩
  obtain ⟨_, hge⟩ := badRegistry_spec hbad
  exact ⟨hge, exec_of_badRegistry hbad⟩

/-- An instruction that faults raises the fault in its start state, with some draws spent (R150). -/
theorem exec_eq_raise_of_faulted (hrun : s.status = .running) (h : exec i s = .next t) (hk : t.status = .faulted k) :
    ∃ d, t = raise k { s with draws := s.draws + d } := by
  have hchanged : t.status ≠ s.status := by simp [hk, hrun]
  cases exec_shape h with
  | faulted k' d =>
    cases hk
    exact ⟨d, rfl⟩
  | halted _ => cases hk
  | advanced hstatus _ => exact absurd hstatus hchanged
  | redirected _ hstatus _ _ _ _ => exact absurd hstatus hchanged

/-- Settles O48: a fault of the fetch spends no draw, and a fault of an instruction is raised in its start state. -/
theorem faultsArePrecise : Obligations.FaultsArePrecise := by
  intro s t k h hk
  obtain ⟨hrun, ⟨_, rfl⟩ | ⟨_, rfl⟩ | ⟨w, _, hexec⟩⟩ := step_next h
  · cases hk
    exact ⟨Nat.le_refl _, rfl⟩
  · cases hk
    exact ⟨Nat.le_refl _, rfl⟩
  · obtain ⟨d, rfl⟩ := exec_eq_raise_of_faulted (s := afterFetch s) hrun hexec hk
    exact ⟨Nat.le_add_right _ d, rfl⟩

/-- Of the three statuses a well-formed instruction can leave, a fault that did not stand there before is one of R156's
table. -/
theorem StatusAfter.mayRaise_of_faulted (hrun : s.status = .running) (h : StatusAfter i s (.faulted k)) :
    mayRaise i k = true := by
  cases h with
  | kept hq =>
    rw [hrun] at hq
    cases hq
  | faulted _ hmay _ => exact hmay

/-- Settles O49: the status an instruction leaves is a fault only by its row of R156's table. -/
theorem faultsMatchInstruction : Obligations.FaultsMatchInstruction := by
  intro i s t k hwf hrun h hk
  have hafter := exec_statusAfter hwf h
  rw [hk] at hafter
  exact hafter.mayRaise_of_faulted hrun

end Sys2Proof.Machine
end

/-! ### The encoder through bytes: the four bytes of a word are that word again, with nothing left over -/

section
namespace Sys2Proof.Machine

open BitVec

/-- A word is its four bytes, first byte first (R43). -/
theorem bytes_append_eq (w : InstrWord) :
    w.extractLsb' 24 8 ++ w.extractLsb' 16 8 ++ w.extractLsb' 8 8 ++ w.extractLsb' 0 8 = w := by
  rw [extractLsb'_append_extractLsb'_eq_extractLsb' (by decide),
    extractLsb'_append_extractLsb'_eq_extractLsb' (by decide),
    extractLsb'_append_extractLsb'_eq_extractLsb' (by decide)]
  exact extractLsb'_eq_self

/-- The word at the front of its own bytes, whatever follows them. -/
theorem takeWord_wordBytes_append (w : InstrWord) (rest : List Byte) :
    takeWord (wordBytes w ++ rest) = some (w, rest) :=
  congrArg (fun v => some (v, rest)) (bytes_append_eq w)

/-- The bytes of a word decode as the word does, and all that follows them is left over. -/
theorem decodeBytes_wordBytes_append (w : InstrWord) (rest : List Byte) :
    decodeBytes (wordBytes w ++ rest) = .ok (decode w, rest) := by
  rw [decodeBytes, takeWord_wordBytes_append]

/-- Settles O2: the decoder undoes the encoder on words, and the bytes of a word are that word again. -/
theorem decodeOfEncodeIsIdentity : Obligations.DecodeOfEncodeIsIdentity := by
  intro i hwf
  have hword : decode (encode i) = i := decode_encode hwf
  have hbytes := decodeBytes_wordBytes_append (encode i) []
  rw [List.append_nil, hword] at hbytes
  exact ⟨hword, hbytes⟩

/-- Settles O3: each opcode's row re-encodes to the fields under its mask. -/
theorem encodeOfDecodeClearsUnusedBits : Obligations.EncodeOfDecodeClearsUnusedBits := encode_decode

/-- Settles O7: the decoder and the encoder, evaluated on the eight words of the spec's vectors. -/
theorem specVectorsDecode : Obligations.SpecVectorsDecode :=
  ⟨rfl, rfl, rfl, rfl, rfl, rfl, rfl, rfl⟩

end Sys2Proof.Machine
end

/-! ### The program store: the words laid out in it are the words fetched from it -/

section
namespace Sys2Proof.Machine

/-- A fragment of fewer than four bytes holds no word at any index (R42, decision D8). -/
theorem wordAt_fragment {frag : List Byte} (hfrag : frag.length < 4) (p : Nat) : wordAt frag p = none := by
  rw [← Option.not_isSome_iff_eq_none, wordAt_isSome, decide_eq_true_iff]
  omega

/-- The first word of a store. -/
theorem wordAt_wordBytes_append_zero (w : InstrWord) (bs : List Byte) : wordAt (wordBytes w ++ bs) 0 = some w := by
  rw [wordAt, Nat.mul_zero, List.drop_zero, takeWord_wordBytes_append]
  rfl

/-- The words after the first stand one index further on. -/
theorem wordAt_wordBytes_append_succ (w : InstrWord) (bs : List Byte) (p : Nat) :
    wordAt (wordBytes w ++ bs) (p + 1) = wordAt bs p := by
  have hdrop : (wordBytes w ++ bs).drop (4 * (p + 1)) = bs.drop (4 * p) := rfl
  rw [wordAt, hdrop, wordAt]

/-- The store of a list of words, with a fragment after them, answers the list's own lookup. -/
theorem wordAt_flatMap {frag : List Byte} (hfrag : frag.length < 4) (ws : List InstrWord) :
    ∀ p, wordAt (ws.flatMap wordBytes ++ frag) p = ws[p]? := by
  induction ws with
  | nil => exact wordAt_fragment hfrag
  | cons w ws ih =>
    intro p
    rw [List.flatMap_cons, List.append_assoc]
    cases p with
    | zero => exact wordAt_wordBytes_append_zero w _
    | succ p => rw [wordAt_wordBytes_append_succ, ih, List.getElem?_cons_succ]

/-- Every word takes four bytes. -/
theorem length_flatMap_wordBytes (ws : List InstrWord) : (ws.flatMap wordBytes).length = 4 * ws.length := by
  induction ws with
  | nil => rfl
  | cons w ws ih =>
    rw [List.flatMap_cons, List.length_append, ih, List.length_cons]
    simp only [wordBytes, List.length_cons, List.length_nil]
    omega

/-- Settles O8: the lookup by induction on the words, the length from four bytes each. -/
theorem programStoreHoldsWordsInOrder : Obligations.ProgramStoreHoldsWordsInOrder := by
  intro ws frag p hfrag
  refine ⟨wordAt_flatMap hfrag ws p, ?_⟩
  rw [List.length_append, length_flatMap_wordBytes]
  omega

/-- The word the host places is the word at its index, whether the store reached that far or was filled up to it. -/
theorem wordAt_storeWordAt (prog : List Byte) (p : Nat) (w : InstrWord) : wordAt (storeWordAt prog p w) p = some w := by
  have hlength : (prog.take (4 * p) ++ List.replicate (4 * p - prog.length) 0).length = 4 * p := by
    simp only [List.length_append, List.length_take, List.length_replicate]
    omega
  rw [wordAt, storeWordAt, List.append_assoc _ (wordBytes w), List.drop_left' hlength, takeWord_wordBytes_append]
  rfl

/-- Once the next fetch is answered, it is no failure. -/
theorem head?_fetchAnswered (events : List Bool) : (fetchAnswered events).head? ≠ some true := by
  match events with
  | [] => nofun
  | true :: _ => nofun
  | false :: _ => nofun

/-- Settles O13: in the state with the word placed, the fetch does not fail and finds that word. -/
theorem placedWordRunsNext : Obligations.PlacedWordRunsNext := by
  intro s w hw
  have hword : wordAt (s.withFetchWord 32 w).prog s.pc.toNat = some (BitVec.ofNat 32 w) := by
    rw [State.withFetchWord, Nat.mod_eq_of_lt hw]
    exact wordAt_storeWordAt s.prog s.pc.toNat _
  exact step_of_wordAt rfl (head?_fetchAnswered s.storeEvents) hword

end Sys2Proof.Machine
end

/-! ### The decimal text: a numeral for each value, and the output a step appends -/

section
namespace Sys2Proof.Machine

/-- `ds` is the shortest decimal numeral of `n`, most significant digit first (R92). -/
structure IsNumeral (ds : List Nat) (n : Nat) : Prop where
  ne_nil : ds ≠ []
  digit_lt : ∀ d ∈ ds, d < 10
  no_leading_zero : ds.head? = some 0 → ds = [0]
  value : ds.foldl (fun m d => 10 * m + d) 0 = n

namespace IsNumeral

/-- A number below ten is its own digit. -/
theorem single {n : Nat} (h : n < 10) : IsNumeral [n] n where
  ne_nil := List.cons_ne_nil _ _
  digit_lt := by simpa using h
  no_leading_zero := by simp
  value := by simp

/-- One more digit after a numeral that is not 0. -/
theorem snoc {ds : List Nat} {m d : Nat} (h : IsNumeral ds m) (hm : m ≠ 0) (hd : d < 10) :
    IsNumeral (ds ++ [d]) (10 * m + d) where
  ne_nil := by simp
  digit_lt x hx := by
    rcases List.mem_append.mp hx with hx | hx
    · exact h.digit_lt x hx
    · exact List.mem_singleton.mp hx ▸ hd
  no_leading_zero hzero := by
    rw [List.head?_append_of_ne_nil _ h.ne_nil] at hzero
    have hvalue := h.value
    rw [h.no_leading_zero hzero] at hvalue
    exact absurd hvalue.symm hm
  value := by rw [List.foldl_append, h.value]; rfl

end IsNumeral

/-- With digits enough, `decDigits` writes the shortest numeral. -/
theorem decDigits_isNumeral (fuel : Nat) : ∀ {n : Nat}, n < 10 ^ (fuel + 1) →
    ∃ ds, IsNumeral ds n ∧ ds.length ≤ fuel + 1 ∧ decDigits (fuel + 1) n = ds.map digitByte := by
  induction fuel with
  | zero =>
    intro n hn
    exact ⟨[n], .single hn, Nat.le_refl 1, if_pos hn⟩
  | succ fuel ih =>
    intro n hn
    by_cases hsmall : n < 10
    · exact ⟨[n], .single hsmall, by simp, if_pos hsmall⟩
    · obtain ⟨ds, hds, hlength, htext⟩ := ih (n := n / 10) (by rw [Nat.pow_succ] at hn; omega)
      have hnumeral := hds.snoc (d := n % 10) (by omega) (by omega)
      rw [Nat.div_add_mod] at hnumeral
      refine ⟨ds ++ [n % 10], hnumeral, by simpa using hlength, ?_⟩
      rw [decDigits, if_neg hsmall, htext, List.map_append, List.map_singleton]

/-- The text is the numeral of the magnitude, after a minus sign for a negative value. -/
theorem dec_eq (n : Int) : dec n = (if n < 0 then [0x2D] else []) ++ decDigits 5 n.natAbs := by
  unfold dec
  split <;> rfl

/-- The magnitude of a signed 16-bit value. -/
theorem natAbs_toInt_le (v : Word) : v.toInt.natAbs ≤ 32768 := by
  have hlow := BitVec.le_toInt v
  have hhigh := BitVec.toInt_lt (x := v)
  omega

/-- Settles O19: five digits hold every magnitude, and the sign is one byte more. -/
theorem decimalTextIsShortestNumeral : Obligations.DecimalTextIsShortestNumeral := by
  intro v
  have hbound := natAbs_toInt_le v
  obtain ⟨ds, hds, hlength, htext⟩ := decDigits_isNumeral 4 (n := v.toInt.natAbs) (by omega)
  have hdec := dec_eq v.toInt
  rw [htext] at hdec
  refine ⟨ds, hds.ne_nil, hds.digit_lt, hds.no_leading_zero, hds.value, hdec, ?_⟩
  rw [hdec, List.length_append, List.length_map]
  split <;> simp <;> omega

section
variable {i : Instr} {s t : State}

/-- The text of a value takes at most six bytes. -/
theorem length_dec_le (v : Word) : (dec v.toInt).length ≤ 6 := by
  obtain ⟨_, _, _, _, _, _, hlength⟩ := decimalTextIsShortestNumeral v
  exact hlength

theorem execPool_keeps_out {a b : Nat} {off : Word} (h : execPool a b off s = .next t) : t.out = s.out := by
  rcases execPool_next h with ⟨_, _, _, _, _, rfl⟩ | ⟨_, _, _, _, _, rfl⟩ | ⟨_, _, _, rfl⟩ <;> simp

/-- An instruction that is no output instruction keeps the output stream (R31). -/
theorem exec_keeps_out (hout : isOutput i = false) (h : exec i s = .next t) : t.out = s.out := by
  cases hdest : destination i with
  | some a =>
    obtain ⟨_, _, hkept, _⟩ := registerWritersFrame i a s t hdest h
    exact hkept
  | none =>
    cases hstore : isStore i with
    | false =>
      obtain ⟨_, _, _, _, _, _, hkept, _⟩ := nonWritersFrame i s t hdest hstore h
      exact hkept hout
    | true =>
      cases i with
      | pool a b off => exact execPool_keeps_out h
      | _ => cases hstore

/-- The output has grown by at most seven bytes, and by none unless the instruction is an output instruction. -/
def AppendsOutput (i : Instr) (s t : State) : Prop :=
  ∃ bs, t.out = s.out ++ bs ∧ bs.length ≤ 7 ∧ (bs ≠ [] → isOutput i = true)

theorem AppendsOutput.of_kept (h : t.out = s.out) : AppendsOutput i s t :=
  ⟨[], by simpa using h, Nat.zero_le 7, fun hne => absurd rfl hne⟩

/-- Any instruction only appends to the output: COUT one byte, IOUT at most a sign, five digits and a line feed. -/
theorem exec_appendsOutput (h : exec i s = .next t) : AppendsOutput i s t := by
  cases hout : isOutput i with
  | false => exact .of_kept (exec_keeps_out hout h)
  | true =>
    cases i with
    | cout a =>
      rcases execCout_next h with ⟨r, _, rfl⟩ | ⟨_, rfl⟩
      · exact ⟨[(s.operand r 0).extractLsb' 0 8], by simp, by simp, fun _ => rfl⟩
      · exact .of_kept rfl
    | iout a =>
      rcases execIout_next h with ⟨r, _, rfl⟩ | ⟨_, rfl⟩
      · have hlength := length_dec_le (s.operand r 0)
        refine ⟨dec (sval (s.operand r 0)) ++ [lineFeed], by simp, ?_, fun _ => rfl⟩
        rw [sval_eq_toInt, List.length_append, List.length_singleton]
        omega
      · exact .of_kept rfl
    | _ => cases hout

/-- Opcodes 2 and 3 and no other decode to output instructions (R65). -/
theorem opField_of_isOutput_decode {w : InstrWord} (h : isOutput (decode w) = true) : opField w = 2 ∨ opField w = 3 := by
  unfold decode at h
  split at h
  case h_3 hop => exact .inl hop
  case h_4 hop => exact .inr hop
  all_goals cases h

end

/-- Settles O46: the faults of the fetch append nothing, and an instruction that appends has opcode 2 or 3. -/
theorem outputIsAppendOnly : Obligations.OutputIsAppendOnly := by
  intro s t h
  obtain ⟨_, ⟨_, rfl⟩ | ⟨_, rfl⟩ | ⟨w, hfetch, hexec⟩⟩ := step_next h
  · exact ⟨[], by simp, by simp, fun hne => absurd rfl hne⟩
  · exact ⟨[], by simp, by simp, fun hne => absurd rfl hne⟩
  · obtain ⟨bs, happend, hlength, honly⟩ := exec_appendsOutput hexec
    exact ⟨bs, happend, hlength, fun hne =>
      ⟨w, wordAt_of_ifetch hfetch, opField_of_isOutput_decode (honly hne)⟩⟩

end Sys2Proof.Machine
end

/-! ### JUMP and FORK on registers of the bank: which target enters the pc, and when -/

section
namespace Sys2Proof.Machine

section
variable (a b c : Fin 16) (off : Word) (s : State)

/-- JUMP on a register of the bank: the sum of the value read and the offset is the target (R101). -/
theorem execJump_apply :
    execJump a off s = .next (jumpTo (basePlusOffset (s.operand a 0) off) (afterRead a s)) := by
  simp only [execJump, checkReg_fin, orRaise_ok, withRead_apply]

/-- FORK on registers of the bank: two reads, then the third read and the jump, or the next word (R102). -/
theorem execFork_apply :
    execFork a b c off s =
      if s.operand b 0 = s.operand c (drawsOf b) then
        .next (jumpTo (basePlusOffset (s.operand a (drawsOf b + drawsOf c)) off)
          (afterRead a (afterRead c (afterRead b s))))
      else .next (advance (afterRead c (afterRead b s))) := by
  simp only [execFork, checkReg_fin, orRaise_ok, withRead_apply, operand_afterRead, Nat.add_zero]

/-- The exact sum as a pc (R100): the 17-bit target fits. -/
theorem basePlusOffset_pc_toNat (base : Word) :
    ((basePlusOffset base off).setWidth 32 : WordIndex).toNat = base.toNat + off.toNat :=
  (BitVec.toNat_setWidth_of_le (by decide)).trans (basePlusOffset_toNat base off)

end

/-- Settles O20: JUMP's meaning, its target entering the pc as the number it is. -/
theorem jumpSetsPc : Obligations.JumpSetsPc := by
  intro a off s
  refine ⟨_, basePlusOffset_pc_toNat off (s.operand a 0), (execJump_apply a off s).trans ?_⟩
  rw [afterRead_eq]
  rfl

/-- Settles O21: the two branches of FORK's meaning. -/
theorem forkBranchesOnEquality : Obligations.ForkBranchesOnEquality := by
  intro a b c off s
  constructor
  · intro heq
    refine ⟨_, basePlusOffset_pc_toNat off _, ((execFork_apply a b c off s).trans (if_pos heq)).trans ?_⟩
    simp only [afterRead_eq]
    rfl
  · intro hne
    refine ((execFork_apply a b c off s).trans (if_neg hne)).trans ?_
    simp only [afterRead_eq]
    rfl

end Sys2Proof.Machine
end

/-! ### LOAD and POOL on registers of the bank: the access inside the segment, and the fault outside it -/

section
namespace Sys2Proof.Machine

section
variable {a b : Fin 16} {off : Word} {s : State}

/-- An access inside the segment reads its two bytes (R47). -/
theorem memRead_of_le {ea : EffAddr} (h : ea.toNat + 2 ≤ s.memSize) :
    memRead ea s = .ok (s.mem.readWord ea.toNat) :=
  if_pos ((inBounds_iff s ea).mpr h)

/-- An access that leaves the segment is the fault with the address of its first byte (R148). -/
theorem memRead_of_lt {ea : EffAddr} (h : s.memSize < ea.toNat + 2) :
    memRead ea s = .error (.outOfBoundsMemoryAccess ea) :=
  if_neg (mt (inBounds_iff s ea).mp (Nat.not_le.mpr h))

/-- An access inside the segment writes its two bytes (R48). -/
theorem memWrite_of_le {ea : EffAddr} {v : Word} (h : ea.toNat + 2 ≤ s.memSize) :
    memWrite ea v s = .ok { s with mem := s.mem.writeWord ea.toNat v } :=
  if_pos ((inBounds_iff s ea).mpr h)

/-- A write that leaves the segment writes neither byte (R48, R148). -/
theorem memWrite_of_lt {ea : EffAddr} {v : Word} (h : s.memSize < ea.toNat + 2) :
    memWrite ea v s = .error (.outOfBoundsMemoryAccess ea) :=
  if_neg (mt (inBounds_iff s ea).mp (Nat.not_le.mpr h))

/-- LOAD on registers of the bank: one read, then the access at the sum of the value read and the offset (R111). -/
theorem execLoad_apply :
    execLoad a b off s =
      orRaise (memRead (basePlusOffset (s.operand b 0) off) (afterRead b s)) (afterRead b s) fun x =>
        .next (advance (writeReg a x (afterRead b s))) := by
  simp only [execLoad, checkReg_fin, orRaise_ok, withRead_apply]

/-- POOL on registers of the bank: the data read, the base read, then the access (R112). -/
theorem execPool_apply :
    execPool a b off s =
      orRaise (memWrite (basePlusOffset (s.operand b (drawsOf a)) off) (s.operand a 0) (afterRead b (afterRead a s)))
        (afterRead b (afterRead a s)) fun stored => .next (advance stored) := by
  simp only [execPool, checkReg_fin, orRaise_ok, withRead_apply, operand_afterRead, Nat.add_zero]

theorem execLoad_of_inside (h : (basePlusOffset (s.operand b 0) off).toNat + 2 ≤ s.memSize) :
    execLoad a b off s = .next { s with
      regs := s.regs.set a (s.mem.readWord (basePlusOffset (s.operand b 0) off).toNat)
      pc := s.pc + 1, draws := s.draws + drawsOf b } := by
  rw [execLoad_apply, memRead_of_le (by simpa using h), orRaise_ok, afterRead_eq]
  rfl

theorem execLoad_of_outside (h : s.memSize < (basePlusOffset (s.operand b 0) off).toNat + 2) :
    execLoad a b off s = .next { s with
      status := .faulted (.outOfBoundsMemoryAccess (basePlusOffset (s.operand b 0) off))
      draws := s.draws + drawsOf b } := by
  rw [execLoad_apply, memRead_of_lt (by simpa using h), orRaise_error, afterRead_eq]
  rfl

theorem execPool_of_inside (h : (basePlusOffset (s.operand b (drawsOf a)) off).toNat + 2 ≤ s.memSize) :
    execPool a b off s = .next { s with
      mem := s.mem.writeWord (basePlusOffset (s.operand b (drawsOf a)) off).toNat (s.operand a 0)
      pc := s.pc + 1, draws := s.draws + drawsOf a + drawsOf b } := by
  rw [execPool_apply, memWrite_of_le (by simpa using h), orRaise_ok, afterRead_eq, afterRead_eq]
  rfl

theorem execPool_of_outside (h : s.memSize < (basePlusOffset (s.operand b (drawsOf a)) off).toNat + 2) :
    execPool a b off s = .next { s with
      status := .faulted (.outOfBoundsMemoryAccess (basePlusOffset (s.operand b (drawsOf a)) off))
      draws := s.draws + drawsOf a + drawsOf b } := by
  rw [execPool_apply, memWrite_of_lt (by simpa using h), orRaise_error, afterRead_eq, afterRead_eq]
  rfl

/-- The address that an access computes is the one with its number. -/
theorem eq_basePlusOffset {ea : EffAddr} {base : Word} (h : ea.toNat = base.toNat + off.toNat) :
    ea = basePlusOffset base off :=
  BitVec.eq_of_toNat_eq (h.trans (basePlusOffset_toNat base off).symm)

end

/-- Settles O24: LOAD inside the segment, its value as the number of the two bytes. -/
theorem loadReadsTwoBytes : Obligations.LoadReadsTwoBytes := by
  intro a b off s ea hea hin
  rw [← basePlusOffset_toNat] at hea
  subst hea
  exact ⟨_, Memory.readWord_toNat s.mem _, execLoad_of_inside hin⟩

/-- Settles O25: LOAD outside the segment. -/
theorem loadOutsideSegmentFaults : Obligations.LoadOutsideSegmentFaults := by
  intro a b off s ea hea hout
  obtain rfl := eq_basePlusOffset hea
  exact execLoad_of_outside hout

/-- The number of a value's high byte. -/
theorem toNat_highByte (v : Word) : (v.extractLsb' 8 8).toNat = v.toNat / 256 := by
  have hv := v.isLt
  rw [BitVec.extractLsb'_toNat, Nat.shiftRight_eq_div_pow]
  omega

/-- The number of a value's low byte. -/
theorem toNat_lowByte (v : Word) : (v.extractLsb' 0 8).toNat = v.toNat % 256 := by
  rw [BitVec.extractLsb'_toNat, Nat.shiftRight_zero]

section
variable {m : Memory} (hm : m.wf = true) (a : Nat) (v : Word)
include hm

/-- The high byte stands at the lower address (R49). -/
theorem Memory.read_writeWord_high : (m.writeWord a v).read a = v.extractLsb' 8 8 := by
  simp [Memory.read_writeWord hm]

/-- The low byte stands one address on (R49). -/
theorem Memory.read_writeWord_low : (m.writeWord a v).read (a + 1) = v.extractLsb' 0 8 := by
  simp [Memory.read_writeWord hm]

/-- A 16-bit write changes no other byte (R48). -/
theorem Memory.read_writeWord_of_ne {x : Nat} (hhigh : x ≠ a) (hlow : x ≠ a + 1) :
    (m.writeWord a v).read x = m.read x := by
  rw [Memory.read_writeWord hm, if_neg hlow.symm, if_neg hhigh.symm]

end

/-- Settles O26: POOL inside the segment, and the three reads of the memory it leaves. -/
theorem poolWritesTwoBytes : Obligations.PoolWritesTwoBytes := by
  intro a b off s ea hwf hea hin
  rw [← basePlusOffset_toNat] at hea
  subst hea
  refine ⟨_, execPool_of_inside hin, ?_, ?_, ?_⟩
  · rw [Memory.read_writeWord_high hwf, toNat_highByte]
  · rw [Memory.read_writeWord_low hwf, toNat_lowByte]
  · exact fun x hhigh hlow => Memory.read_writeWord_of_ne hwf _ _ hhigh hlow

/-- Settles O27: POOL outside the segment. -/
theorem poolOutsideSegmentFaults : Obligations.PoolOutsideSegmentFaults := by
  intro a b off s ea hea hout
  obtain rfl := eq_basePlusOffset hea
  exact execPool_of_outside hout

/-- Settles O44: inside the segment the two bytes of the write, outside it the fault alone. -/
theorem poolFrame : Obligations.PoolFrame := by
  intro a b off s t hwf h
  change execPool a b off s = .next t at h
  rw [readReg_afterRead]
  rcases Nat.lt_or_ge s.memSize ((basePlusOffset (s.operand b (drawsOf a)) off).toNat + 2) with hout | hin
  · rw [execPool_of_outside hout] at h
    cases h
    exact ⟨fun _ _ _ _ _ => rfl, rfl, rfl, rfl, rfl, rfl, .inr ⟨⟨_, rfl⟩, rfl, rfl⟩⟩
  · rw [execPool_of_inside hin] at h
    cases h
    refine ⟨?_, rfl, rfl, rfl, rfl, rfl, .inl rfl⟩
    rintro _ rfl x hhigh hlow
    exact Memory.read_writeWord_of_ne hwf _ _ hhigh hlow

/-- A value is its two bytes. -/
theorem twoBytes_append_eq (v : Word) : v.extractLsb' 8 8 ++ v.extractLsb' 0 8 = v := by
  rw [BitVec.extractLsb'_append_extractLsb'_eq_extractLsb' (by decide)]
  exact BitVec.extractLsb'_eq_self

/-- Settles O28: the two bytes of one write, and of two writes the earlier's high byte beside the later's. -/
theorem storesOverlapByteByByte : Obligations.StoresOverlapByteByByte := by
  intro m a v w hm
  have hm' : (m.writeWord a v).wf = true := Memory.wf_writeWord a v hm
  constructor
  · rw [Memory.readWord, Memory.read_writeWord_high hm, Memory.read_writeWord_low hm, twoBytes_append_eq]
  · rw [Memory.readWord, Memory.read_writeWord_high hm', Memory.read_writeWord_of_ne hm' _ _ (by omega) (by omega),
      Memory.read_writeWord_high hm]

/-! Canonical memory lists exactly what its reads show. -/

theorem Memory.wfFrom_cons {lo a : Nat} {v : Byte} {m : Memory} :
    Memory.wfFrom lo ((a, v) :: m) = true ↔ lo ≤ a ∧ v ≠ Memory.unlisted ∧ m.wfFrom (a + 1) = true := by
  simp only [Memory.wfFrom, Bool.and_eq_true, decide_eq_true_eq, and_assoc]

theorem Memory.read_cons_self (a : Nat) (v : Byte) (m : Memory) : Memory.read ((a, v) :: m) a = v := if_pos rfl

theorem Memory.read_cons_of_ne {a x : Nat} (v : Byte) (m : Memory) (h : a ≠ x) :
    Memory.read ((a, v) :: m) x = m.read x := if_neg h

section
variable {lo lo' a b : Nat} {v w : Byte} {m n : Memory}

/-- A canonical memory that reads as another does at that one's first address begins no later. -/
theorem Memory.head_le (hm : Memory.wfFrom lo ((a, v) :: m) = true) (hn : Memory.wfFrom lo' ((b, w) :: n) = true)
    (h : Memory.read ((a, v) :: m) a = Memory.read ((b, w) :: n) a) : b ≤ a := by
  obtain ⟨_, hv, _⟩ := Memory.wfFrom_cons.mp hm
  obtain ⟨_, hw, hrest⟩ := Memory.wfFrom_cons.mp hn
  by_contra hlt
  have hbelow : Memory.read ((b, w) :: n) a = Memory.unlisted :=
    Memory.read_below (lo := b) (Nat.lt_of_not_le hlt) (Memory.wfFrom_cons.mpr ⟨Nat.le_refl b, hw, hrest⟩)
  rw [Memory.read_cons_self, hbelow] at h
  exact hv h

/-- What follows an equal first entry reads alike: at its address and below, neither lists anything. -/
theorem Memory.read_tail_eq (hm : m.wfFrom (a + 1) = true) (hn : n.wfFrom (a + 1) = true)
    (h : ∀ x, Memory.read ((a, v) :: m) x = Memory.read ((a, w) :: n) x) (x : Nat) : m.read x = n.read x := by
  rcases Nat.lt_or_ge a x with hlt | hle
  · have hx := h x
    rwa [Memory.read_cons_of_ne v m (Nat.ne_of_lt hlt), Memory.read_cons_of_ne w n (Nat.ne_of_lt hlt)] at hx
  · rw [Memory.read_below (Nat.lt_succ_of_le hle) hm, Memory.read_below (Nat.lt_succ_of_le hle) hn]

end

/-- A canonical memory that lists something does not read as the empty one. -/
theorem Memory.not_read_eq_nil {lo a : Nat} {v : Byte} {m : Memory} (hm : Memory.wfFrom lo ((a, v) :: m) = true) :
    ¬ ∀ x, Memory.read ((a, v) :: m) x = Memory.read [] x := by
  intro h
  obtain ⟨_, hv, _⟩ := Memory.wfFrom_cons.mp hm
  exact hv ((Memory.read_cons_self a v m).symm.trans (h a))

/-- From any address on, canonical memories that read alike are equal. -/
theorem Memory.eq_of_read_eq : ∀ {lo : Nat} {m n : Memory}, m.wfFrom lo = true → n.wfFrom lo = true →
    (∀ x, m.read x = n.read x) → m = n
  | _, [], [], _, _, _ => rfl
  | _, [], (_, _) :: _, _, hn, h => absurd (fun x => (h x).symm) (Memory.not_read_eq_nil hn)
  | _, (_, _) :: _, [], hm, _, h => absurd h (Memory.not_read_eq_nil hm)
  | _, (a, v) :: m, (b, w) :: n, hm, hn, h => by
    obtain rfl : a = b := Nat.le_antisymm (Memory.head_le hn hm (h b).symm) (Memory.head_le hm hn (h a))
    obtain rfl : v = w := by
      have ha := h a
      rwa [Memory.read_cons_self, Memory.read_cons_self] at ha
    obtain ⟨_, _, hm⟩ := Memory.wfFrom_cons.mp hm
    obtain ⟨_, _, hn⟩ := Memory.wfFrom_cons.mp hn
    rw [Memory.eq_of_read_eq hm hn (Memory.read_tail_eq hm hn h)]

/-- Settles O29: canonical memories are equal entry by entry. -/
theorem canonicalMemoryIsUnique : Obligations.CanonicalMemoryIsUnique :=
  fun _ _ hm hn h => Memory.eq_of_read_eq hm hn h

end Sys2Proof.Machine
end

/-! ### Division: a step of the unit is the library's truncating signed division, and IDIV chains two -/

section
namespace Sys2Proof.Machine

section
variable {n d : Int}

/-- Where R126 gives the positive sign, the truncating quotient is not negative. -/
theorem intTdiv_nonneg_of_signs (h : n = 0 ∨ (0 < n ↔ 0 < d)) : 0 ≤ n.tdiv d := by
  by_cases hd : 0 < d
  · exact Int.tdiv_nonneg (by omega) (by omega)
  · exact Int.tdiv_nonneg_of_nonpos_of_nonpos (by omega) (by omega)

/-- Where R126 gives the negative sign, it is not positive. -/
theorem intTdiv_nonpos_of_signs (h : ¬(n = 0 ∨ (0 < n ↔ 0 < d))) : n.tdiv d ≤ 0 := by
  by_cases hd : 0 < d
  · have hneg : 0 ≤ (-n).tdiv d := Int.tdiv_nonneg (by omega) (by omega)
    rw [Int.neg_tdiv] at hneg
    omega
  · exact Int.tdiv_nonpos_of_nonneg_of_nonpos (by omega) (by omega)

/-- The quotient of R126, given by magnitude and sign, is the truncating quotient of the integers. -/
theorem tdiv_eq_intTdiv (n d : Int) : tdiv n d = n.tdiv d := by
  have hmagnitude : (n.tdiv d).natAbs = n.natAbs / d.natAbs := Int.natAbs_tdiv n d
  unfold tdiv
  rw [← hmagnitude]
  split
  · next h => exact Int.natAbs_of_nonneg (intTdiv_nonneg_of_signs h)
  · next h => rw [Int.ofNat_natAbs_of_nonpos (intTdiv_nonpos_of_signs h), Int.neg_neg]

end

/-- A division step is the signed division of patterns, the wrap of R128 included. -/
theorem divStep_eq_sdiv (n d : Word) : divStep n d = n.sdiv d := by
  apply BitVec.eq_of_toInt_eq
  rw [divStep, wrap16, BitVec.toInt_ofInt, tdiv_eq_intTdiv, sval_eq_toInt, sval_eq_toInt, BitVec.toInt_sdiv]

/-- With both divisors nonzero the unit chains two divisions (R125). -/
theorem aluDiv_of_ne_zero {l r i : Word} (hr : r ≠ 0) (hi : i ≠ 0) : aluDiv l r i = .ok ((l.sdiv r).sdiv i) := by
  rw [aluDiv, if_neg (not_or.mpr ⟨hr, hi⟩), divStep_eq_sdiv, divStep_eq_sdiv]

/-- Settles O34: IDIV's meaning with its unit as two chained divisions. -/
theorem idivWritesChainedQuotient : Obligations.IdivWritesChainedQuotient :=
  fun _ _ _ _ _ hright himm => arith_of_ok (aluDiv_of_ne_zero hright himm)

/-- But for the one overflow, the result of a division step is the truncating quotient of the signed views (R126). -/
theorem toInt_divStep {n d : Word} (h : ¬(n = 0x8000 ∧ d = 0xFFFF)) : (divStep n d).toInt = n.toInt.tdiv d.toInt := by
  rw [divStep_eq_sdiv]
  exact BitVec.toInt_sdiv_of_ne_or_ne n d (not_and_or.mp h)

/-- The quotient has the sign of the product of its operands, or is zero (R126). -/
theorem tdiv_mul_nonneg (n d : Int) : 0 ≤ n.tdiv d * (n * d) := by
  rw [← Int.sign_nonneg_iff, Int.sign_mul, Int.sign_mul, Int.sign_tdiv]
  split
  · rw [Int.zero_mul]
  · exact mul_self_nonneg _

/-- Settles O36: the magnitudes divide as natural numbers do, and the pair that overflows is evaluated. -/
theorem divisionRoundsTowardZero : Obligations.DivisionRoundsTowardZero := by
  refine ⟨fun n d hd hfits => ?_, by decide⟩
  have hmagnitude : (n.toInt.tdiv d.toInt).natAbs = n.toInt.natAbs / d.toInt.natAbs := Int.natAbs_tdiv _ _
  have hpos : 0 < d.toInt.natAbs := Int.natAbs_pos.mpr fun h => hd (BitVec.eq_of_toInt_eq h)
  simp only [toInt_divStep hfits, hmagnitude]
  exact ⟨Nat.div_mul_le_self _ _, Nat.lt_div_mul_add hpos, tdiv_mul_nonneg _ _⟩

end Sys2Proof.Machine
end

/-! ### The status: no word names a bad index, and the status word can be read back -/

section
namespace Sys2Proof.Machine

/-- Settles O40: the two faults of the fetch are of other kinds, and a decoded instruction leaves a status of R142 without
InvalidRegistry. -/
theorem invalidRegistryNeverRaisedByWords : Obligations.InvalidRegistryNeverRaisedByWords := by
  intro s t n h hbad
  obtain ⟨hrun, ⟨_, rfl⟩ | ⟨_, rfl⟩ | ⟨w, _, hexec⟩⟩ := step_next h
  · cases hbad
  · cases hbad
  · have hafter := exec_statusAfter (decodedRegistersAreInRange w) hexec
    rw [hbad] at hafter
    cases hafter with
    | kept hq =>
      rw [afterFetch_status, hrun] at hq
      cases hq
    | faulted _ _ hlegal => exact hlegal

/-! The three fields of a status word (R30). -/

/-- The number of a fault's status word: INFO above CAUSE above STATE. -/
theorem word_faulted_toNat (k : FaultKind) :
    (Status.faulted k).word.toNat = k.info.toNat * 32 + k.code.toNat * 4 + 2 := by
  have hcode := k.code.isLt
  have hstate : (2 : BitVec 2).toNat = 2 := rfl
  rw [Status.word, BitVec.toNat_append, BitVec.toNat_append, Nat.shiftLeft_eq, Nat.shiftLeft_eq,
    Nat.mul_comm _ (2 ^ 3), Nat.mul_comm _ (2 ^ 2), ← Nat.two_pow_add_eq_or_of_lt hcode,
    ← Nat.two_pow_add_eq_or_of_lt (2 : BitVec 2).isLt]
  omega

/-- Settles O51: the fixed words evaluated, the two with a free payload from their fields. -/
theorem statusWordValues : Obligations.StatusWordValues := by
  refine ⟨rfl, rfl, rfl, rfl, rfl, rfl, rfl, rfl, rfl, fun ea => ?_, fun n hn => ?_⟩
  · have hcode : (FaultKind.outOfBoundsMemoryAccess ea).code.toNat = 6 := rfl
    have hinfo : (FaultKind.outOfBoundsMemoryAccess ea).info = ea := rfl
    rw [word_faulted_toNat, hcode, hinfo]
    omega
  · have hcode : (FaultKind.invalidRegistry n).code.toNat = 2 := rfl
    have hinfo : (FaultKind.invalidRegistry n).info.toNat = n := (BitVec.toNat_ofNat n 17).trans (Nat.mod_eq_of_lt hn)
    rw [word_faulted_toNat, hcode, hinfo]
    omega

/-- The fault kind of a code and a payload (R142). -/
def FaultKind.ofFields (code : Nat) (info : BitVec 17) : FaultKind :=
  match code with
  | 1 => .invalidInstruction (info.setWidth 8)
  | 2 => .invalidRegistry info.toNat
  | 3 => .unexpectedEndOfFile
  | 4 => .divisionByZero
  | 5 => .backingStoreError
  | _ => .outOfBoundsMemoryAccess info

/-- The status that a status word shows (R30). -/
def Status.ofWord (w : BitVec 22) : Status :=
  match (w.extractLsb' 0 2).toNat with
  | 0 => .running
  | 1 => .halted
  | _ => .faulted (.ofFields (w.extractLsb' 2 3).toNat (w.extractLsb' 5 17))

/-- Code and payload give every fault back that a run can show. -/
theorem FaultKind.ofFields_code_info {size : Nat} {k : FaultKind} (h : (Status.faulted k).legal size) :
    ofFields k.code.toNat k.info = k := by
  cases k with
  | invalidInstruction op =>
    have hop : (op.setWidth 17).setWidth 8 = op := by
      rw [BitVec.setWidth_setWidth_of_le _ (by decide), BitVec.setWidth_eq]
    exact congrArg invalidInstruction hop
  | invalidRegistry n => exact h.elim
  | unexpectedEndOfFile | divisionByZero | backingStoreError | outOfBoundsMemoryAccess ea => rfl

/-- The status word gives every status back that a run can show. -/
theorem Status.ofWord_word {size : Nat} {p : Status} (h : p.legal size) : ofWord p.word = p := by
  cases p with
  | running | halted => rfl
  | faulted k =>
    have hinfo : (faulted k).word.extractLsb' 5 17 = k.info :=
      (BitVec.extractLsb'_append_eq_of_le (by decide)).trans BitVec.extractLsb'_append_eq_left
    have hcode : (faulted k).word.extractLsb' 2 3 = k.code :=
      (BitVec.extractLsb'_append_eq_of_le (by decide)).trans BitVec.extractLsb'_append_eq_right
    have hstate : (faulted k).word.extractLsb' 0 2 = 2 := BitVec.extractLsb'_append_eq_right
    rw [ofWord, hinfo, hcode, hstate]
    exact congrArg faulted (FaultKind.ofFields_code_info h)

/-- Settles O52: a status is read back from its status word. -/
theorem statusWordDeterminesStatus : Obligations.StatusWordDeterminesStatus := by
  intro size p q hp hq hword
  calc p
      _ = Status.ofWord p.word := (Status.ofWord_word hp).symm
      _ = q := by rw [hword, Status.ofWord_word hq]

end Sys2Proof.Machine
end

/-! ### The register bank and the state after reset -/

section
namespace Sys2Proof.Machine

section
variable (s : State) {i j : Fin 16} (v : Word)

/-- Every register but 3 gives its cell (R23). -/
theorem operand_of_ne_three (hi : i ≠ 3) (k : Nat) : s.operand i k = s.regs[i] := if_neg hi

/-- Only a read of register 3 makes a draw (R23). -/
theorem drawsOf_of_ne_three (hi : i ≠ 3) : drawsOf i = 0 := if_neg hi

/-- A read gives back what was written there (R22). -/
theorem operand_writeReg_self (hi : i ≠ 3) (k : Nat) : (writeReg i v s).operand i k = v := by
  rw [operand_of_ne_three _ hi]
  exact Vector.getElem_set_self i.isLt

/-- A write changes no read of another register, register 3 among them (R22). -/
theorem operand_writeReg_of_ne (hij : i ≠ j) (k : Nat) : (writeReg i v s).operand j k = s.operand j k := by
  by_cases hj : j = 3
  · subst hj
    rfl
  · rw [operand_of_ne_three _ hj, operand_of_ne_three _ hj]
    exact Vector.getElem_set_ne i.isLt j.isLt fun h => hij (Fin.ext h)

end

/-- Settles O38: the laws of the operand reads, and what a read spends. -/
theorem registerBankReadsAndWrites : Obligations.RegisterBankReadsAndWrites := by
  intro s i j v
  simp only [readReg_eq_operand]
  refine ⟨fun hi => operand_writeReg_self s v hi 0, fun hij => operand_writeReg_of_ne s v hij 0, fun hi => ?_, rfl, rfl⟩
  refine ⟨operand_of_ne_three s hi 0, ?_⟩
  rw [afterRead_eq, drawsOf_of_ne_three hi]
  rfl

/-- The invariant holds at reset for every program within R41's bound: memory is empty, the pc is 0, the run is on. -/
theorem resetWith_inv {prog : List Byte} (hprog : prog.length / 4 ≤ 2 ^ 32 - 1) (image : Vector Word 16) (size : Nat)
    (events : List Bool) (d : Nat) : (State.resetWith image size prog events d).Inv where
  mem_wf := rfl
  mem_inside := nofun
  prog_bound := hprog
  pc_bound := Nat.zero_le _
  status_legal := trivial

/-- Settles O54: `State.reset` is the reset of the empty program. -/
theorem resetMeetsInvariant : Obligations.ResetMeetsInvariant :=
  ⟨resetWith_inv (Nat.zero_le _) _ _ _ _, fun image size _ events d hprog => resetWith_inv hprog image size events d⟩

/-- In the standard image every cell from the fourth on is zero (R24). -/
theorem standardImage_of_three_le : ∀ n : Fin 16, 3 ≤ n.val → Config.standardImage[n] = 0x0000 := by decide

/-- Settles O53: the fields of the reset state, and the cells of the standard image. -/
theorem resetLeavesInitialState : Obligations.ResetLeavesInitialState :=
  ⟨fun _ _ _ _ _ => ⟨rfl, rfl, rfl, fun _ => rfl, rfl, rfl, rfl⟩, rfl, rfl, rfl, standardImage_of_three_le, rfl, rfl⟩

end Sys2Proof.Machine
end
